-- ==== Sys2Proof/Word.lean ====
section
/-! DEFINITION. The two word sizes of the hardware (rules R14, R16, R17): a byte, which is what a general
register, a timer and a memory cell hold, and a 16-bit word, which is what `I`, `PC`, a stack slot, the
keypad input and a fetched instruction hold. -/

namespace Sys2Proof

/-- 8 bits: a general register, a timer, a RAM cell (R14, R20 to R22). -/
abbrev Byte := BitVec 8

/-- 16 bits: `I`, `PC`, a stack slot, an instruction word, the keypad (R16, R17, R19, R25, R51). -/
abbrev Word := BitVec 16

end Sys2Proof
end

