-- ==== Sys2Proof/Syntax.lean ====
section
/-! DEFINITION. The instructions: one constructor for each of the 34 rows of `spec/opcode_table.json` (R2, R55), with
the fields that row names (R52). -/

namespace Sys2Proof

/-- The number of a general register `V0`..`VF`: the fields `x` and `y` (R14, R52). -/
abbrev Reg := Fin 16

/-- The 34 executable instructions (R2). `x`, `y` are register numbers, `kk` is an 8-bit immediate, `nnn` a 12-bit
address, and `n` the count of rows of a sprite (R52, R54). The count is a number, which `Instr.wellFormed` bounds. -/
inductive Instr where
  /-- `00E0` CLS (R100). -/
  | cls
  /-- `00EE` RET (R87). -/
  | ret
  /-- `1nnn` JP nnn (R84). -/
  | jpNnn (nnn : BitVec 12)
  /-- `2nnn` CALL nnn (R86). -/
  | callNnn (nnn : BitVec 12)
  /-- `3xkk` SE Vx, kk (R88). -/
  | seVxKk (x : Reg) (kk : Byte)
  /-- `4xkk` SNE Vx, kk (R89). -/
  | sneVxKk (x : Reg) (kk : Byte)
  /-- `5xy0` SE Vx, Vy (R90). -/
  | seVxVy (x y : Reg)
  /-- `6xkk` LD Vx, kk (R70). -/
  | ldVxKk (x : Reg) (kk : Byte)
  /-- `7xkk` ADD Vx, kk (R71). -/
  | addVxKk (x : Reg) (kk : Byte)
  /-- `8xy0` LD Vx, Vy (R72). -/
  | ldVxVy (x y : Reg)
  /-- `8xy1` OR Vx, Vy (R73). -/
  | orVxVy (x y : Reg)
  /-- `8xy2` AND Vx, Vy (R74). -/
  | andVxVy (x y : Reg)
  /-- `8xy3` XOR Vx, Vy (R75). -/
  | xorVxVy (x y : Reg)
  /-- `8xy4` ADD Vx, Vy (R76). -/
  | addVxVy (x y : Reg)
  /-- `8xy5` SUB Vx, Vy (R77). -/
  | subVxVy (x y : Reg)
  /-- `8xy6` SHR Vx, with `y` decoded and ignored (R59, R78). -/
  | shrVxVy (x y : Reg)
  /-- `8xy7` SUBN Vx, Vy (R79). -/
  | subnVxVy (x y : Reg)
  /-- `8xyE` SHL Vx, with `y` decoded and ignored (R59, R80). -/
  | shlVxVy (x y : Reg)
  /-- `9xy0` SNE Vx, Vy (R91). -/
  | sneVxVy (x y : Reg)
  /-- `Annn` LD I, nnn (R94). -/
  | ldINnn (nnn : BitVec 12)
  /-- `Bnnn` JP V0, nnn (R85). -/
  | jpV0Nnn (nnn : BitVec 12)
  /-- `Cxkk` RND Vx, kk (R82). -/
  | rndVxKk (x : Reg) (kk : Byte)
  /-- `Dxyn` DRW Vx, Vy, n (R101). -/
  | drwVxVyN (x y : Reg) (n : Nat)
  /-- `Ex9E` SKP Vx (R106). -/
  | skpVx (x : Reg)
  /-- `ExA1` SKNP Vx (R107). -/
  | sknpVx (x : Reg)
  /-- `Fx07` LD Vx, DT (R103). -/
  | ldVxDt (x : Reg)
  /-- `Fx0A` LD Vx, K (R108). -/
  | ldVxK (x : Reg)
  /-- `Fx15` LD DT, Vx (R104). -/
  | ldDtVx (x : Reg)
  /-- `Fx18` LD ST, Vx (R105). -/
  | ldStVx (x : Reg)
  /-- `Fx1E` ADD I, Vx (R95). -/
  | addIVx (x : Reg)
  /-- `Fx29` LD F, Vx (R96). -/
  | ldFVx (x : Reg)
  /-- `Fx33` LD B, Vx (R97). -/
  | ldBVx (x : Reg)
  /-- `Fx55` LD [I], Vx (R98). -/
  | ldMemVx (x : Reg)
  /-- `Fx65` LD Vx, [I] (R99). -/
  | ldVxMem (x : Reg)
deriving DecidableEq, Repr

end Sys2Proof
end

