-- ==== Sys2Proof/Decode.lean ====
section
/-! DEFINITION. The instruction encoding (30_encoding.md): the fields of a word, the decoder (total on words and on
bytes, rejecting by name), the opcode table as data, and the encoder. -/

namespace Sys2Proof

/-! ### Fields (R52) -/

/-- The class `c`, bits 15..12. -/
def classOf (w : Word) : BitVec 4 := w.extractLsb' 12 4
/-- The field `x`, bits 11..8. -/
def xOf (w : Word) : Reg := (w.extractLsb' 8 4).toFin
/-- The field `y`, bits 7..4. -/
def yOf (w : Word) : Reg := (w.extractLsb' 4 4).toFin
/-- The field `n`, bits 3..0. -/
def nOf (w : Word) : BitVec 4 := w.extractLsb' 0 4
/-- The field `kk`, bits 7..0. -/
def kkOf (w : Word) : Byte := w.extractLsb' 0 8
/-- The field `nnn`, bits 11..0. -/
def nnnOf (w : Word) : BitVec 12 := w.extractLsb' 0 12

/-! ### The decoder (R55, R56, R58, R65) -/

/-- Why bytes do not decode. -/
inductive DecodeError where
  /-- The word matches no row of the opcode table (R58). -/
  | unknownOpcode (w : Word)
  /-- Fewer than the two bytes of an instruction (R51). Raised by `decodeBytes` only: the engine always fetches two. -/
  | tooFewBytes
deriving DecidableEq, Repr

/-- Class 0x0: the whole word is the subcode (R56). -/
def decode0 (w : Word) : Except DecodeError Instr :=
  match w with
  | 0x00E0#16 => .ok .cls
  | 0x00EE#16 => .ok .ret
  | _ => .error (.unknownOpcode w)

/-- Class 0x5: the subcode is `n` and must be 0 (R56). -/
def decode5 (w : Word) : Except DecodeError Instr :=
  match nOf w with
  | 0x0#4 => .ok (.seVxVy (xOf w) (yOf w))
  | _ => .error (.unknownOpcode w)

/-- Class 0x8: the subcode is `n` (R56). -/
def decode8 (w : Word) : Except DecodeError Instr :=
  match nOf w with
  | 0x0#4 => .ok (.ldVxVy (xOf w) (yOf w))
  | 0x1#4 => .ok (.orVxVy (xOf w) (yOf w))
  | 0x2#4 => .ok (.andVxVy (xOf w) (yOf w))
  | 0x3#4 => .ok (.xorVxVy (xOf w) (yOf w))
  | 0x4#4 => .ok (.addVxVy (xOf w) (yOf w))
  | 0x5#4 => .ok (.subVxVy (xOf w) (yOf w))
  | 0x6#4 => .ok (.shrVxVy (xOf w) (yOf w))
  | 0x7#4 => .ok (.subnVxVy (xOf w) (yOf w))
  | 0xE#4 => .ok (.shlVxVy (xOf w) (yOf w))
  | _ => .error (.unknownOpcode w)

/-- Class 0x9: the subcode is `n` and must be 0 (R56). -/
def decode9 (w : Word) : Except DecodeError Instr :=
  match nOf w with
  | 0x0#4 => .ok (.sneVxVy (xOf w) (yOf w))
  | _ => .error (.unknownOpcode w)

/-- Class 0xE: the subcode is `kk` (R56). -/
def decodeE (w : Word) : Except DecodeError Instr :=
  match kkOf w with
  | 0x9E#8 => .ok (.skpVx (xOf w))
  | 0xA1#8 => .ok (.sknpVx (xOf w))
  | _ => .error (.unknownOpcode w)

/-- Class 0xF: the subcode is `kk` (R56). -/
def decodeF (w : Word) : Except DecodeError Instr :=
  match kkOf w with
  | 0x07#8 => .ok (.ldVxDt (xOf w))
  | 0x0A#8 => .ok (.ldVxK (xOf w))
  | 0x15#8 => .ok (.ldDtVx (xOf w))
  | 0x18#8 => .ok (.ldStVx (xOf w))
  | 0x1E#8 => .ok (.addIVx (xOf w))
  | 0x29#8 => .ok (.ldFVx (xOf w))
  | 0x33#8 => .ok (.ldBVx (xOf w))
  | 0x55#8 => .ok (.ldMemVx (xOf w))
  | 0x65#8 => .ok (.ldVxMem (xOf w))
  | _ => .error (.unknownOpcode w)

/-- The instruction a word is, or its rejection by name (R65): by class, and within classes 0x0, 0x5, 0x8, 0x9, 0xE
and 0xF by subcode (R55, R56, R58). -/
def decode (w : Word) : Except DecodeError Instr :=
  match classOf w with
  | 0x0#4 => decode0 w
  | 0x1#4 => .ok (.jpNnn (nnnOf w))
  | 0x2#4 => .ok (.callNnn (nnnOf w))
  | 0x3#4 => .ok (.seVxKk (xOf w) (kkOf w))
  | 0x4#4 => .ok (.sneVxKk (xOf w) (kkOf w))
  | 0x5#4 => decode5 w
  | 0x6#4 => .ok (.ldVxKk (xOf w) (kkOf w))
  | 0x7#4 => .ok (.addVxKk (xOf w) (kkOf w))
  | 0x8#4 => decode8 w
  | 0x9#4 => decode9 w
  | 0xA#4 => .ok (.ldINnn (nnnOf w))
  | 0xB#4 => .ok (.jpV0Nnn (nnnOf w))
  | 0xC#4 => .ok (.rndVxKk (xOf w) (kkOf w))
  | 0xD#4 => .ok (.drwVxVyN (xOf w) (yOf w) (nOf w).toNat)
  | 0xE#4 => decodeE w
  | 0xF#4 => decodeF w
  | _ => .error (.unknownOpcode w)

/-- The big-endian word of two bytes, the one at the lower address first (R39, R64). -/
def wordOfBytes (hi lo : Byte) : Word := hi ++ lo

/-- The two bytes that hold a word, the one at the lower address first (R39). -/
def bytesOfWord (w : Word) : List Byte := [w.extractLsb' 8 8, w.extractLsb' 0 8]

/-- The instruction at the head of a list of bytes, and the bytes after it (R51). -/
def decodeBytes : List Byte → Except DecodeError (Instr × List Byte)
  | hi :: lo :: rest =>
    match decode (wordOfBytes hi lo) with
    | .ok i => .ok (i, rest)
    | .error e => .error e
  | [_] => .error .tooFewBytes
  | [] => .error .tooFewBytes

/-! ### The encoder (R53, R55) -/

/-- A register number as the four bits that encode it. -/
def regBits (x : Reg) : BitVec 4 := BitVec.ofFin x

/-- The format `nnn`: `cccc nnnn nnnn nnnn`. -/
def formatNnn (c : BitVec 4) (nnn : BitVec 12) : Word := c ++ nnn
/-- The format `xkk`: `cccc xxxx kkkk kkkk`. -/
def formatXkk (c : BitVec 4) (x : Reg) (kk : Byte) : Word := c ++ regBits x ++ kk
/-- The formats `xy_sub` and `xyn`: `cccc xxxx yyyy` and a subcode or a count in bits 3..0. -/
def formatXyn (c : BitVec 4) (x y : Reg) (n : BitVec 4) : Word := c ++ regBits x ++ regBits y ++ n

/-- The word of a well-formed instruction. -/
def encode : Instr → Word
  | .cls => 0x00E0#16
  | .ret => 0x00EE#16
  | .jpNnn nnn => formatNnn 0x1#4 nnn
  | .callNnn nnn => formatNnn 0x2#4 nnn
  | .seVxKk x kk => formatXkk 0x3#4 x kk
  | .sneVxKk x kk => formatXkk 0x4#4 x kk
  | .seVxVy x y => formatXyn 0x5#4 x y 0x0#4
  | .ldVxKk x kk => formatXkk 0x6#4 x kk
  | .addVxKk x kk => formatXkk 0x7#4 x kk
  | .ldVxVy x y => formatXyn 0x8#4 x y 0x0#4
  | .orVxVy x y => formatXyn 0x8#4 x y 0x1#4
  | .andVxVy x y => formatXyn 0x8#4 x y 0x2#4
  | .xorVxVy x y => formatXyn 0x8#4 x y 0x3#4
  | .addVxVy x y => formatXyn 0x8#4 x y 0x4#4
  | .subVxVy x y => formatXyn 0x8#4 x y 0x5#4
  | .shrVxVy x y => formatXyn 0x8#4 x y 0x6#4
  | .subnVxVy x y => formatXyn 0x8#4 x y 0x7#4
  | .shlVxVy x y => formatXyn 0x8#4 x y 0xE#4
  | .sneVxVy x y => formatXyn 0x9#4 x y 0x0#4
  | .ldINnn nnn => formatNnn 0xA#4 nnn
  | .jpV0Nnn nnn => formatNnn 0xB#4 nnn
  | .rndVxKk x kk => formatXkk 0xC#4 x kk
  | .drwVxVyN x y n => formatXyn 0xD#4 x y (BitVec.ofNat 4 n)
  | .skpVx x => formatXkk 0xE#4 x 0x9E#8
  | .sknpVx x => formatXkk 0xE#4 x 0xA1#8
  | .ldVxDt x => formatXkk 0xF#4 x 0x07#8
  | .ldVxK x => formatXkk 0xF#4 x 0x0A#8
  | .ldDtVx x => formatXkk 0xF#4 x 0x15#8
  | .ldStVx x => formatXkk 0xF#4 x 0x18#8
  | .addIVx x => formatXkk 0xF#4 x 0x1E#8
  | .ldFVx x => formatXkk 0xF#4 x 0x29#8
  | .ldBVx x => formatXkk 0xF#4 x 0x33#8
  | .ldMemVx x => formatXkk 0xF#4 x 0x55#8
  | .ldVxMem x => formatXkk 0xF#4 x 0x65#8

/-! ### The opcode table as data (R57) -/

/-- The `match` and `mask` columns of a row of `spec/opcode_table.json`. -/
structure OpcodeRow where
  value : Word
  mask : Word
deriving DecidableEq, Repr

/-- Does a word match the row: `(w & mask) == match` (R57)? -/
def OpcodeRow.matchesWord (r : OpcodeRow) (w : Word) : Bool := (w &&& r.mask) == r.value

/-- The row of `spec/opcode_table.json` that an instruction comes from. -/
def Instr.row : Instr → OpcodeRow
  | .cls => ⟨0x00E0#16, 0xFFFF#16⟩
  | .ret => ⟨0x00EE#16, 0xFFFF#16⟩
  | .jpNnn _ => ⟨0x1000#16, 0xF000#16⟩
  | .callNnn _ => ⟨0x2000#16, 0xF000#16⟩
  | .seVxKk _ _ => ⟨0x3000#16, 0xF000#16⟩
  | .sneVxKk _ _ => ⟨0x4000#16, 0xF000#16⟩
  | .seVxVy _ _ => ⟨0x5000#16, 0xF00F#16⟩
  | .ldVxKk _ _ => ⟨0x6000#16, 0xF000#16⟩
  | .addVxKk _ _ => ⟨0x7000#16, 0xF000#16⟩
  | .ldVxVy _ _ => ⟨0x8000#16, 0xF00F#16⟩
  | .orVxVy _ _ => ⟨0x8001#16, 0xF00F#16⟩
  | .andVxVy _ _ => ⟨0x8002#16, 0xF00F#16⟩
  | .xorVxVy _ _ => ⟨0x8003#16, 0xF00F#16⟩
  | .addVxVy _ _ => ⟨0x8004#16, 0xF00F#16⟩
  | .subVxVy _ _ => ⟨0x8005#16, 0xF00F#16⟩
  | .shrVxVy _ _ => ⟨0x8006#16, 0xF00F#16⟩
  | .subnVxVy _ _ => ⟨0x8007#16, 0xF00F#16⟩
  | .shlVxVy _ _ => ⟨0x800E#16, 0xF00F#16⟩
  | .sneVxVy _ _ => ⟨0x9000#16, 0xF00F#16⟩
  | .ldINnn _ => ⟨0xA000#16, 0xF000#16⟩
  | .jpV0Nnn _ => ⟨0xB000#16, 0xF000#16⟩
  | .rndVxKk _ _ => ⟨0xC000#16, 0xF000#16⟩
  | .drwVxVyN _ _ _ => ⟨0xD000#16, 0xF000#16⟩
  | .skpVx _ => ⟨0xE09E#16, 0xF0FF#16⟩
  | .sknpVx _ => ⟨0xE0A1#16, 0xF0FF#16⟩
  | .ldVxDt _ => ⟨0xF007#16, 0xF0FF#16⟩
  | .ldVxK _ => ⟨0xF00A#16, 0xF0FF#16⟩
  | .ldDtVx _ => ⟨0xF015#16, 0xF0FF#16⟩
  | .ldStVx _ => ⟨0xF018#16, 0xF0FF#16⟩
  | .addIVx _ => ⟨0xF01E#16, 0xF0FF#16⟩
  | .ldFVx _ => ⟨0xF029#16, 0xF0FF#16⟩
  | .ldBVx _ => ⟨0xF033#16, 0xF0FF#16⟩
  | .ldMemVx _ => ⟨0xF055#16, 0xF0FF#16⟩
  | .ldVxMem _ => ⟨0xF065#16, 0xF0FF#16⟩

/-- One instruction of each row, in the table's order. -/
def oneOfEachRow : List Instr :=
  [.cls, .ret, .jpNnn 0#12, .callNnn 0#12, .seVxKk 0 0#8, .sneVxKk 0 0#8, .seVxVy 0 0, .ldVxKk 0 0#8,
    .addVxKk 0 0#8, .ldVxVy 0 0, .orVxVy 0 0, .andVxVy 0 0, .xorVxVy 0 0, .addVxVy 0 0, .subVxVy 0 0,
    .shrVxVy 0 0, .subnVxVy 0 0, .shlVxVy 0 0, .sneVxVy 0 0, .ldINnn 0#12, .jpV0Nnn 0#12, .rndVxKk 0 0#8,
    .drwVxVyN 0 0 0, .skpVx 0, .sknpVx 0, .ldVxDt 0, .ldVxK 0, .ldDtVx 0, .ldStVx 0, .addIVx 0, .ldFVx 0,
    .ldBVx 0, .ldMemVx 0, .ldVxMem 0]

/-- The 34 rows of `spec/opcode_table.json`, in its order. -/
def opcodeTable : List OpcodeRow := oneOfEachRow.map Instr.row

/-! ### The host's reading of a table word -/

/-- The word that the table numbers `w` in its lowest `nbits` bits (every bit above them 0): the table's bit 0 is the
word's bit 0. -/
def tableWord (nbits w : Nat) : Word := BitVec.ofNat 16 (w % 2 ^ nbits)

/-- The instruction the decoder reads from the bytes of that word, laid out as the hardware stores them (R39). -/
def decodeTableWord (nbits w : Nat) : Option Instr :=
  match decodeBytes (bytesOfWord (tableWord nbits w)) with
  | .ok (i, _) => some i
  | .error _ => none

end Sys2Proof
end

