-- ==== Sys2Proof/Config.lean ====
section
/-! DEFINITION. What is fixed for the machine: the implementation parameters of rule R7, and the one free value,
the random source. The two parameters a test could show wrong, the font's address and its bytes (D1, D2), stand in
`Sys2Proof/Machine/Memory.lean`. -/

namespace Sys2Proof.Config

/-- `MEM_SIZE`: addresses 0x000..0xFFF name a byte (R7, R33). -/
abbrev memSize : Nat := 0x1000

/-- `RESERVED_END + 1`: addresses below it are reserved for the font and cannot be written (R7, R34, R37). -/
abbrev reservedSize : Nat := 0x200

/-- `ROM_BASE`: where the host loads the ROM, and the entry point (R7, R34). -/
abbrev romBase : Nat := 0x200

/-- `ROM_MAX`: the largest ROM, 4096 - 0x200 bytes (R7, R132; 90_conflicts.md C2). -/
abbrev romMax : Nat := 3584

/-- `PC_MAX`: the last address an instruction can be fetched from (R7, R64). -/
abbrev pcMax : Nat := 0xFFE

/-- FREE VALUE. The byte that the `rnd` input gives at the `k`-th sample: "each sample is a free draw: any value
0x00..0xFF" (R26, R81, D19). It has no body, so nothing can be proved of it: a claim holds for every draw. The
counter it is applied to is `State.draws`. See assumption log 1. -/
opaque randomByte : Nat → Byte

end Sys2Proof.Config
end

