-- ==== Sys2Proof/Machine/Memory.lean ====
section
/-! DEFINITION. The 4096-byte RAM (R22, R33, R34): its contents at reset, the sparse canonical form that holds it, and
the unchecked reading and writing of a byte. The checks of rules R36 to R38 are in `Sys2Proof/Machine/Ops.lean`. -/

namespace Sys2Proof.Machine

/-! ### Contents at reset (R22, R130, R131) -/

/-- `FONT_BASE`, the address of the first glyph (R7, R35; the spec's choice D1, assumption log 2). -/
def fontBase : Nat := 0x000

/-- `FONT_GLYPH_BYTES`: the bytes of a glyph, one for each of its rows (R7, R35). -/
def glyphBytes : Nat := 5

/-- The font: 16 glyphs of 5 bytes, rows top to bottom (R131; the spec's choice D2, assumption log 2). -/
def font : List Byte :=
  List.flatten
    [[0xF0#8, 0x90#8, 0x90#8, 0x90#8, 0xF0#8], [0x20#8, 0x60#8, 0x20#8, 0x20#8, 0x70#8],
      [0xF0#8, 0x10#8, 0xF0#8, 0x80#8, 0xF0#8], [0xF0#8, 0x10#8, 0xF0#8, 0x10#8, 0xF0#8],
      [0x90#8, 0x90#8, 0xF0#8, 0x10#8, 0x10#8], [0xF0#8, 0x80#8, 0xF0#8, 0x10#8, 0xF0#8],
      [0xF0#8, 0x80#8, 0xF0#8, 0x90#8, 0xF0#8], [0xF0#8, 0x10#8, 0x20#8, 0x40#8, 0x40#8],
      [0xF0#8, 0x90#8, 0xF0#8, 0x90#8, 0xF0#8], [0xF0#8, 0x90#8, 0xF0#8, 0x10#8, 0xF0#8],
      [0xF0#8, 0x90#8, 0xF0#8, 0x90#8, 0x90#8], [0xE0#8, 0x90#8, 0xE0#8, 0x90#8, 0xE0#8],
      [0xF0#8, 0x80#8, 0x80#8, 0x80#8, 0xF0#8], [0xE0#8, 0x90#8, 0x90#8, 0x90#8, 0xE0#8],
      [0xF0#8, 0x80#8, 0xF0#8, 0x80#8, 0xF0#8], [0xF0#8, 0x80#8, 0xF0#8, 0x80#8, 0x80#8]]

/-- What an address that memory does not list reads as: the RAM's contents at reset, before a ROM is loaded. The font
at `FONT_BASE`, and 0x00 in every other byte (R130; the spec's choice D3, assumption log 3). -/
def resetByte (a : Nat) : Byte :=
  if fontBase ≤ a then font.getD (a - fontBase) 0#8 else 0#8

/-! ### The cells that differ from reset -/

/-- The RAM, as the list of the bytes that differ from the contents at reset. -/
structure Memory where
  cells : List Host.Cell
deriving DecidableEq, Repr

/-- The canonical form: addresses strictly rising, each of them an address of the RAM (R33), and no cell that holds
what its address reads as unlisted. Equal memories are then equal lists. -/
abbrev Memory.wf (m : Memory) : Prop :=
  m.cells.Pairwise (fun c d => c.1 < d.1) ∧ ∀ c ∈ m.cells, c.1 < Config.memSize ∧ c.2 ≠ resetByte c.1

/-- The byte listed at an address. -/
def findCell (a : Nat) : List Host.Cell → Option Byte
  | [] => none
  | (b, v) :: rest => if a = b then some v else findCell a rest

/-- The list with the byte at an address put in, or replaced, in its place in the order. -/
def insertCell (a : Nat) (v : Byte) : List Host.Cell → List Host.Cell
  | [] => [(a, v)]
  | (b, w) :: rest =>
    if a < b then (a, v) :: (b, w) :: rest
    else if a = b then (a, v) :: rest
    else (b, w) :: insertCell a v rest

/-- The list without the cells at an address. -/
def eraseCell (a : Nat) (cs : List Host.Cell) : List Host.Cell := cs.filter (fun c => c.1 ≠ a)

/-- The byte at an address (R36, without its check). -/
def Memory.read (m : Memory) (a : Nat) : Byte := (findCell a m.cells).getD (resetByte a)

/-- The memory after a byte is stored at an address (R37, without its check), in canonical form: storing what an
unlisted address reads as takes the cell out. -/
def Memory.write (m : Memory) (a : Nat) (v : Byte) : Memory :=
  if v = resetByte a then ⟨eraseCell a m.cells⟩ else ⟨insertCell a v m.cells⟩

/-- Bytes stored one after another at rising addresses, the first at `a` (R97, R98, R132). -/
def Memory.writeBytes (m : Memory) (a : Nat) : List Byte → Memory
  | [] => m
  | b :: bs => (m.write a b).writeBytes (a + 1) bs

end Sys2Proof.Machine
end

