-- ==== Sys2Proof/Machine/State.lean ====
section
/-! DEFINITION. The state of the machine: every piece of state of 10_state.md, the inputs the engine reads, and two
fields of the model's own (the turn of the agents, and the count of random draws); with the reasons a step can stop,
and the state at reset (R130). Plain data throughout. -/

namespace Sys2Proof.Machine

/-- The run state (R27). -/
inductive RunState where
  /-- The engine fetches and executes at `PC`. -/
  | running
  /-- An `Fx0A` is suspended, and the engine samples the keypad each step. -/
  | waitKey
  /-- A fault occurred: final. -/
  | halted
  /-- The host cancelled the run: final. -/
  | stopped
deriving DecidableEq, Repr

/-- The fault kinds that the fault record can hold (R29, R110). -/
inductive FaultKind where
  | noFault
  | unknownOpcode
  | stackOverflow
  | stackUnderflow
  | invalidAddress
deriving DecidableEq, Repr

/-- One transition of one agent (R43, R44). An execution is an interleaving of these in one total order. The renderer's
reads change nothing and are functions of the state (`Sys2Proof/Machine/Environment.lean`). -/
inductive Event where
  /-- The engine takes a step (R63). -/
  | engine
  /-- The Timer Unit ticks (R121). -/
  | tick
  /-- The input layer sets one key's bit: `set_pressed(key, bool)` (R124). -/
  | setKey (key : Fin 16) (pressed : Bool)
  /-- The host raises `cancel` (R127). -/
  | cancel
  /-- The host resets the block, loads a ROM and starts it (R30, R118, R130 to R133). -/
  | launch (rom : List Byte)
deriving DecidableEq, Repr

/-- Why a step has no next state. None of these is a fault of the spec's: those are entered by a step that answers a
next state (R67, `State.enterFault`). -/
inductive Fault where
  /-- Raised by `engineStep` when `run` is `Halted`: "In `Halted` and `Stopped` the engine has no step" (R63). Safe. -/
  | engineHalted
  /-- Raised by `engineStep` when `run` is `Stopped` (R63). Safe. -/
  | engineStopped
  /-- Raised by the host's launch of a ROM of over 3584 bytes: "the engine is never started" (R115, R132). Safe. -/
  | romTooLarge
deriving DecidableEq, Repr

/-- Why an instruction has no meaning. Nothing raises it: every instruction has one. -/
inductive Refusal where
  /-- Raised only by an arm of `exec` whose instruction has no meaning yet; there is none. Safe. -/
  | notModelled (mnemonic : String)
deriving DecidableEq, Repr

/-- The framebuffer, a 64x32 array of 1-bit pixels: row `y` holds the pixels of columns 0..63 in its bits 0..63, so that
pixel `(x, y)` has the linear bit address `y * 64 + x` (R23, D20). -/
abbrev Framebuffer := Vector (BitVec 64) 32

/-- The state. -/
structure State where
  /-- General registers `V0`..`VF` (R14, R15). -/
  v : Vector Byte 16
  /-- Address register `I` (R16). -/
  i : Word
  /-- Program counter `PC` (R17). -/
  pc : Word
  /-- Stack pointer `SP`, the number of occupied slots, 0..16 (R18). -/
  sp : Fin 17
  /-- Call stack `Stack[0..15]` (R19). -/
  stack : Vector Word 16
  /-- Delay timer `DT` (R20). -/
  dt : Byte
  /-- Sound timer `ST` (R21). -/
  st : Byte
  /-- RAM (R22). -/
  mem : Memory
  /-- Framebuffer (R23). -/
  fb : Framebuffer
  /-- `frame_seq`, the framebuffer's change notification, unbounded (R24). -/
  frameSeq : Nat
  /-- Keypad input `Keys[0..15]`, written by the host only (R25). -/
  keys : Word
  /-- `run` (R27). -/
  run : RunState
  /-- `wait_x`, the register a suspended `Fx0A` will write (R28). -/
  waitX : Reg
  /-- `prev_keys`, the keypad value last sampled (R28). -/
  prevKeys : Word
  /-- `fault_kind` (R29). -/
  faultKind : FaultKind
  /-- `fault_info` (R29). -/
  faultInfo : Word
  /-- THE MODEL'S OWN: how many random bytes have been drawn. It only numbers the free draws (assumption log 1). -/
  draws : Nat
  /-- THE MODEL'S OWN: whose transitions come next, in order. With none listed, every step is the engine's
  (assumption log 4). -/
  schedule : List Event
deriving DecidableEq, Repr

/-- The state after reset, before a ROM is loaded (R130). `run` is `Running`, its value once a load succeeds: the empty
ROM leaves exactly this state (R132, R133). -/
def State.reset : State where
  v := Vector.replicate 16 0#8
  i := 0x0000#16
  pc := 0x0200#16
  sp := 0
  stack := Vector.replicate 16 0#16
  dt := 0#8
  st := 0#8
  mem := ⟨[]⟩
  fb := Vector.replicate 32 0#64
  frameSeq := 0
  keys := 0#16
  run := .running
  waitX := 0
  prevKeys := 0#16
  faultKind := .noFault
  faultInfo := 0#16
  draws := 0
  schedule := []

end Sys2Proof.Machine
end

