-- ==== Sys2Proof/Machine/Ops.lean ====
section
/-! DEFINITION. The shared operations: registers, the outcome of an instruction and the update of `PC`, entering a
fault, the address checks and the checked transfers. There is no return from a fault (R118), so there is no operation
for one: only a launch starts a new run (`Sys2Proof/Machine/Environment.lean`). -/

namespace Sys2Proof.Machine

/-! ### General registers (R10, R14) -/

/-- The flag register `VF` (R15). -/
def regF : Reg := 15

/-- `V[x]`. -/
def State.reg (s : State) (x : Reg) : Byte := s.v[x]

/-- `V[x] <- b`. No register is hardwired (R14). -/
def State.setReg (s : State) (x : Reg) (b : Byte) : State := { s with v := s.v.set x b }

/-- `V[x] <- b`, then `VF <- f`: the flag is written last, so with `x = F` the register ends holding the flag (R15,
D8). -/
def State.setRegFlag (s : State) (x : Reg) (b f : Byte) : State := (s.setReg x b).setReg regF f

/-! ### The outcome of an instruction (R12, R66) -/

/-- What an instruction that does not fault returns. -/
inductive Flow where
  | continue
  | jump (target : Word)
  | skip
  | waitForKey
deriving DecidableEq, Repr

/-- The update of `PC` and `run` from an outcome, made once and in the same step (R66). An instruction runs only while
`run` is `Running` (R63), so the three outcomes whose row says `Running` leave `run` as it is. -/
def State.complete (s : State) : Flow → State
  | .continue => { s with pc := s.pc + 2 }
  | .jump target => { s with pc := target }
  | .skip => { s with pc := s.pc + 4 }
  | .waitForKey => { s with run := .waitKey }

/-- `Skip` if the condition holds, else `Continue` (R66). -/
def skipIf (c : Bool) : Flow := if c then .skip else .continue

/-- The instruction ends with its effects in `s` and the outcome `f`. -/
def finish (s : State) (f : Flow) : Host.Outcome State Fault Refusal := .next (s.complete f)

/-! ### Faults (R67, R117) -/

/-- Entering a fault: the engine halts and records the kind and the information; nothing else is written, `PC` stays
at the faulting instruction, and control goes nowhere (R67, R117). -/
def State.enterFault (s : State) (k : FaultKind) (info : Word) : State :=
  { s with run := .halted, faultKind := k, faultInfo := info }

/-- The instruction raises a fault: it writes nothing else (R10, R117). -/
def raise (s : State) (k : FaultKind) (info : Word) : Host.Outcome State Fault Refusal := .next (s.enterFault k info)

/-! ### Address checks (R36 to R38) -/

/-- The check of a data read: the address names a byte (R36). -/
def readable (a : Nat) : Bool := decide (a < Config.memSize)

/-- The check of a data write: the address names a byte outside the reserved region (R37). -/
def writable (a : Nat) : Bool := decide (Config.reservedSize ≤ a ∧ a < Config.memSize)

/-- The lowest address of `a .. a+k-1` that fails a check, if one does (R38). Addresses are exact: they do not wrap. -/
def lowestFailing (ok : Nat → Bool) (a : Nat) : Nat → Option Nat
  | 0 => none
  | k + 1 => if ok a then lowestFailing ok (a + 1) k else some a

/-- An instruction that touches the `k` bytes from `a`: the whole range is checked before any effect; if an address
fails, `InvalidAddress` of the lowest one; else the effect (R38). -/
def checkedRange (s : State) (ok : Nat → Bool) (a k : Nat) (effect : Host.Outcome State Fault Refusal) :
    Host.Outcome State Fault Refusal :=
  match lowestFailing ok a k with
  | some b => raise s .invalidAddress (BitVec.ofNat 16 b)
  | none => effect

/-! ### Transfers through `I` -/

/-- The address in `I`, as an exact number. -/
abbrev State.base (s : State) : Nat := s.i.toNat

/-- Store bytes from the address in `I` upwards, after the check of the whole range (R37, R38, R97, R98). `I` is not
changed. -/
def storeAtI (s : State) (bs : List Byte) : Host.Outcome State Fault Refusal :=
  checkedRange s writable s.base bs.length (finish { s with mem := s.mem.writeBytes s.base bs } .continue)

/-- The registers `V0..Vx`, in order (R98, R99). -/
def regsUpTo (x : Reg) : List Reg := (List.finRange 16).take (x.val + 1)

/-- Load each register `r` of a list from the byte at `I + r`, in order (R99). -/
def loadRegs (s : State) (rs : List Reg) : State := rs.foldl (fun t r => t.setReg r (s.mem.read (s.base + r.val))) s

/-! ### Fetch (R64) -/

/-- May an instruction be fetched at this address: even, and at most 0xFFE (R41, R64)? -/
def fetchable (a : Word) : Bool := decide (a.toNat % 2 = 0 ∧ a.toNat ≤ Config.pcMax)

/-- The instruction word at `PC`: "the big-endian 16-bit instruction word at `mem[pc]:mem[pc+1]`" (R39, R64). -/
def State.fetchWord (s : State) : Word := wordOfBytes (s.mem.read s.pc.toNat) (s.mem.read (s.pc.toNat + 1))

end Sys2Proof.Machine
end

