-- ==== Sys2Proof/Machine/Operands.lean ====
section
/-! DEFINITION. The operand forms: how the fields of an instruction and the registers they name become the values an
instruction uses (R10, R54). Nothing is sign-extended, scaled or shifted. -/

namespace Sys2Proof.Machine

/-- `zext_16(nnn)`: a 12-bit address (R54). -/
def addressOf (nnn : BitVec 12) : Word := nnn.setWidth 16

/-- `zext_16(nnn) + zext_16(V[0])`, exact and not masked to 12 bits (R85, D30). -/
def State.v0Target (s : State) (nnn : BitVec 12) : Word := addressOf nnn + (s.reg 0).setWidth 16

/-- The address of the instruction after the one at `PC`: what a call pushes (R86). -/
def State.returnAddress (s : State) : Word := s.pc + 2

/-- `Vx & 0x0F`: a key index or a digit (R96, R106, R107, D11). -/
def lowNibble (b : Byte) : Fin 16 := (b.extractLsb' 0 4).toFin

/-- `FONT_BASE + 5 * d`: the address of the glyph of a digit (R35, R96). -/
def glyphAddress (d : Fin 16) : Word := BitVec.ofNat 16 (fontBase + glyphBytes * d.val)

/-- `I + zext_16(V[x])`, exact (R95). -/
def State.indexSum (s : State) (x : Reg) : Nat := s.base + (s.reg x).toNat

/-- The hundreds, tens and units of a byte, most significant first (R39, R97). -/
def bcdDigits (b : Byte) : List Byte :=
  [BitVec.ofNat 8 (b.toNat / 100), BitVec.ofNat 8 (b.toNat / 10 % 10), BitVec.ofNat 8 (b.toNat % 10)]

/-- `Keys[k]`: is the key pressed (R25)? -/
def State.keyPressed (s : State) (k : Fin 16) : Bool := s.keys.getLsbD k.val

end Sys2Proof.Machine
end

