-- ==== Sys2Proof/Machine/Flags.lean ====
section
/-! DEFINITION. The values `VF` takes as a flag (R15). A comparison yields 1 for true and 0 for false (R9). The
collision flag of `Dxyn` is computed with the draw, in `Sys2Proof/Machine/Display.lean`. -/

namespace Sys2Proof.Machine

/-- A condition as a byte: 1 for true, 0 for false (R9). -/
def flag (c : Bool) : Byte := if c then 1#8 else 0#8

/-- The carry out of bit 7 of `a + b` (R76). -/
def carryFlag (a b : Byte) : Byte := flag (decide (a.toNat + b.toNat > 255))

/-- Not-borrow of `a - b` (R77, R79). -/
def notBorrowFlag (a b : Byte) : Byte := flag (decide (b.toNat ≤ a.toNat))

/-- The bit a right shift by one shifts out (R78). -/
def shiftedOutRight (a : Byte) : Byte := a &&& 1#8

/-- The bit a left shift by one shifts out (R80). -/
def shiftedOutLeft (a : Byte) : Byte := (a >>> 7) &&& 1#8

end Sys2Proof.Machine
end

