-- ==== Sys2Proof/Machine/Arith.lean ====
section
/-! DEFINITION. Register loads, arithmetic, logic, shifts and the random byte (41_arith.md, R70 to R83). Each ends in
`Continue` and none can fault (R83). -/

namespace Sys2Proof.Machine

/-- `V[x] <- b`; `Continue`. -/
def writeReg (s : State) (x : Reg) (b : Byte) : Host.Outcome State Fault Refusal := finish (s.setReg x b) .continue

/-- `V[x] <- b`, then `VF <- f`; `Continue`. Both values were computed from the registers before any write (D8). -/
def writeRegFlag (s : State) (x : Reg) (b f : Byte) : Host.Outcome State Fault Refusal :=
  finish (s.setRegFlag x b f) .continue

/-- `6xkk` LD Vx, kk (R70). -/
def execLdVxKk (x : Reg) (kk : Byte) (s : State) : Host.Outcome State Fault Refusal := writeReg s x kk

/-- `7xkk` ADD Vx, kk: no carry flag (R71). -/
def execAddVxKk (x : Reg) (kk : Byte) (s : State) : Host.Outcome State Fault Refusal := writeReg s x (s.reg x + kk)

/-- `8xy0` LD Vx, Vy (R72). -/
def execLdVxVy (x y : Reg) (s : State) : Host.Outcome State Fault Refusal := writeReg s x (s.reg y)

/-- `8xy1` OR Vx, Vy: `VF` is not a flag here (R73). -/
def execOrVxVy (x y : Reg) (s : State) : Host.Outcome State Fault Refusal := writeReg s x (s.reg x ||| s.reg y)

/-- `8xy2` AND Vx, Vy (R74). -/
def execAndVxVy (x y : Reg) (s : State) : Host.Outcome State Fault Refusal := writeReg s x (s.reg x &&& s.reg y)

/-- `8xy3` XOR Vx, Vy (R75). -/
def execXorVxVy (x y : Reg) (s : State) : Host.Outcome State Fault Refusal := writeReg s x (s.reg x ^^^ s.reg y)

/-- `8xy4` ADD Vx, Vy: `VF` is the carry (R76). -/
def execAddVxVy (x y : Reg) (s : State) : Host.Outcome State Fault Refusal :=
  writeRegFlag s x (s.reg x + s.reg y) (carryFlag (s.reg x) (s.reg y))

/-- `8xy5` SUB Vx, Vy: `VF` is not-borrow (R77). -/
def execSubVxVy (x y : Reg) (s : State) : Host.Outcome State Fault Refusal :=
  writeRegFlag s x (s.reg x - s.reg y) (notBorrowFlag (s.reg x) (s.reg y))

/-- `8xy6` SHR Vx: `Vx` is shifted whatever `y` is, and `VF` is the bit shifted out (R59, R78). -/
def execShrVxVy (x _y : Reg) (s : State) : Host.Outcome State Fault Refusal :=
  writeRegFlag s x (s.reg x >>> 1) (shiftedOutRight (s.reg x))

/-- `8xy7` SUBN Vx, Vy: `VF` is not-borrow (R79). -/
def execSubnVxVy (x y : Reg) (s : State) : Host.Outcome State Fault Refusal :=
  writeRegFlag s x (s.reg y - s.reg x) (notBorrowFlag (s.reg y) (s.reg x))

/-- `8xyE` SHL Vx: `Vx` is shifted whatever `y` is, and `VF` is the bit shifted out (R59, R80). -/
def execShlVxVy (x _y : Reg) (s : State) : Host.Outcome State Fault Refusal :=
  writeRegFlag s x (s.reg x <<< 1) (shiftedOutLeft (s.reg x))

/-- `V[x] <- r & kk` for the byte `r` drawn, and one draw counted (R81, R82). -/
def rndWith (r : Byte) (x : Reg) (kk : Byte) (s : State) : Host.Outcome State Fault Refusal :=
  writeReg { s with draws := s.draws + 1 } x (r &&& kk)

/-- `Cxkk` RND Vx, kk: one draw for each execution; the byte drawn is a free value (R81, R82, assumption log 1). -/
def execRndVxKk (x : Reg) (kk : Byte) (s : State) : Host.Outcome State Fault Refusal :=
  rndWith (Config.randomByte s.draws) x kk s

end Sys2Proof.Machine
end

