-- ==== Sys2Proof/Machine/Control.lean ====
section
/-! DEFINITION. Jumps, subroutine call and return, and the skips on registers (42_control.md, R84 to R93). A target is
not checked when it is formed: the next fetch checks it (R92, D7). -/

namespace Sys2Proof.Machine

/-- `1nnn` JP nnn (R84). -/
def execJpNnn (nnn : BitVec 12) (s : State) : Host.Outcome State Fault Refusal := finish s (.jump (addressOf nnn))

/-- `Bnnn` JP V0, nnn (R85). -/
def execJpV0Nnn (nnn : BitVec 12) (s : State) : Host.Outcome State Fault Refusal := finish s (.jump (s.v0Target nnn))

/-- `2nnn` CALL nnn: with 16 calls outstanding, `StackOverflow` of the instruction's own word, which is its encoding;
else the address after the call is pushed (R86, R112). -/
def execCallNnn (nnn : BitVec 12) (s : State) : Host.Outcome State Fault Refusal :=
  if h : s.sp.val < 16 then
    finish { s with stack := s.stack.set s.sp.val s.returnAddress h, sp := ⟨s.sp.val + 1, Nat.succ_lt_succ h⟩ }
      (.jump (addressOf nnn))
  else raise s .stackOverflow (encode (.callNnn nnn))

/-- `00EE` RET: with no call outstanding, `StackUnderflow(0x00EE)`; else the top slot is popped, and keeps its value
(R87, R113). -/
def execRet (s : State) : Host.Outcome State Fault Refusal :=
  if h : 0 < s.sp.val then
    finish { s with sp := ⟨s.sp.val - 1, Nat.lt_of_le_of_lt (Nat.sub_le _ _) s.sp.isLt⟩ }
      (.jump (s.stack[s.sp.val - 1]'(Nat.sub_one_lt_of_le h (Nat.le_of_lt_succ s.sp.isLt))))
  else raise s .stackUnderflow 0x00EE#16

/-- `3xkk` SE Vx, kk (R88). -/
def execSeVxKk (x : Reg) (kk : Byte) (s : State) : Host.Outcome State Fault Refusal :=
  finish s (skipIf (s.reg x == kk))

/-- `4xkk` SNE Vx, kk (R89). -/
def execSneVxKk (x : Reg) (kk : Byte) (s : State) : Host.Outcome State Fault Refusal :=
  finish s (skipIf (s.reg x != kk))

/-- `5xy0` SE Vx, Vy (R90). -/
def execSeVxVy (x y : Reg) (s : State) : Host.Outcome State Fault Refusal := finish s (skipIf (s.reg x == s.reg y))

/-- `9xy0` SNE Vx, Vy (R91). -/
def execSneVxVy (x y : Reg) (s : State) : Host.Outcome State Fault Refusal := finish s (skipIf (s.reg x != s.reg y))

end Sys2Proof.Machine
end

