-- ==== Sys2Proof/Machine/Display.lean ====
section
/-! DEFINITION. The framebuffer and the two instructions that write it (44_display.md, R100 to R102). -/

namespace Sys2Proof.Machine

/-- The framebuffer with every pixel unset. -/
def blankScreen : Framebuffer := Vector.replicate 32 0#64

/-- `Fb[x, y]` (R10, R23). -/
def pixel (fb : Framebuffer) (x : Fin 64) (y : Fin 32) : Bool := fb[y].getLsbD x.val

/-- `Fb[x, y] <- Fb[x, y] ^ 1` (R101). -/
def togglePixel (fb : Framebuffer) (x : Fin 64) (y : Fin 32) : Framebuffer :=
  fb.set y.val (fb[y] ^^^ BitVec.twoPow 64 x.val)

/-- The screen column of a sprite's column `k`, wrapped (R101). -/
def screenColumn (x0 k : Nat) : Fin 64 := ⟨(x0 + k) % 64, Nat.mod_lt _ (by decide)⟩

/-- The screen row of a sprite's row `r`, wrapped (R101). -/
def screenRow (y0 r : Nat) : Fin 32 := ⟨(y0 + r) % 32, Nat.mod_lt _ (by decide)⟩

/-- A framebuffer being drawn on, and whether a pixel has gone from set to unset so far. -/
abbrev Canvas := Framebuffer × Bool

/-- One bit of a sprite: a set bit toggles its pixel, and a pixel that was set makes a collision (R101). Bit 7 is the
leftmost column (R102). -/
def drawBit (x0 y0 r : Nat) (b : Byte) (canvas : Canvas) (k : Nat) : Canvas :=
  if b.getLsbD (7 - k) then
    (togglePixel canvas.1 (screenColumn x0 k) (screenRow y0 r),
      canvas.2 || pixel canvas.1 (screenColumn x0 k) (screenRow y0 r))
  else canvas

/-- One row of a sprite, its columns from the left (R101). -/
def drawRow (x0 y0 : Nat) (canvas : Canvas) (r : Nat) (b : Byte) : Canvas :=
  (List.range 8).foldl (drawBit x0 y0 r b) canvas

/-- The `n` rows of the sprite whose bytes start at `a`. The collision is of the whole draw (R101). -/
def drawSprite (m : Memory) (a x0 y0 n : Nat) (fb : Framebuffer) : Canvas :=
  (List.range n).foldl (fun canvas r => drawRow x0 y0 canvas r (m.read (a + r))) (fb, false)

/-- `00E0` CLS: every pixel unset, and a new frame (R100). -/
def execCls (s : State) : Host.Outcome State Fault Refusal :=
  finish { s with fb := blankScreen, frameSeq := s.frameSeq + 1 } .continue

/-- The state after a draw: the framebuffer, then `VF`, and a new frame (R101). -/
def State.drawn (s : State) (canvas : Canvas) : State :=
  { s with fb := canvas.1, frameSeq := s.frameSeq + 1 }.setReg regF (flag canvas.2)

/-- `Dxyn` DRW Vx, Vy, n (R101). With `n = 0` no byte is read or checked (D22). -/
def execDrwVxVyN (x y : Reg) (n : Nat) (s : State) : Host.Outcome State Fault Refusal :=
  checkedRange s readable s.base n
    (finish (s.drawn (drawSprite s.mem s.base (s.reg x).toNat (s.reg y).toNat n s.fb)) .continue)

end Sys2Proof.Machine
end

