-- ==== Sys2Proof/Machine/IndexMemory.lean ====
section
/-! DEFINITION. The index register and the transfers between RAM and the registers (43_index_memory.md, R94 to
R99). -/

namespace Sys2Proof.Machine

/-- `I <- a`; `Continue`. -/
def writeIndex (s : State) (a : Word) : Host.Outcome State Fault Refusal := finish { s with i := a } .continue

/-- `Annn` LD I, nnn (R94). -/
def execLdINnn (nnn : BitVec 12) (s : State) : Host.Outcome State Fault Refusal := writeIndex s (addressOf nnn)

/-- `Fx1E` ADD I, Vx: `InvalidAddress` of the sum when it leaves the address space; `VF` is not written (R95, D6). -/
def execAddIVx (x : Reg) (s : State) : Host.Outcome State Fault Refusal :=
  if s.indexSum x < Config.memSize then writeIndex s (BitVec.ofNat 16 (s.indexSum x))
  else raise s .invalidAddress (BitVec.ofNat 16 (s.indexSum x))

/-- `Fx29` LD F, Vx: the glyph of the low nibble of `Vx` (R96, D11). -/
def execLdFVx (x : Reg) (s : State) : Host.Outcome State Fault Refusal :=
  writeIndex s (glyphAddress (lowNibble (s.reg x)))

/-- `Fx33` LD B, Vx (R97). -/
def execLdBVx (x : Reg) (s : State) : Host.Outcome State Fault Refusal := storeAtI s (bcdDigits (s.reg x))

/-- `Fx55` LD [I], Vx (R98). -/
def execLdMemVx (x : Reg) (s : State) : Host.Outcome State Fault Refusal := storeAtI s ((regsUpTo x).map s.reg)

/-- `Fx65` LD Vx, [I] (R99). -/
def execLdVxMem (x : Reg) (s : State) : Host.Outcome State Fault Refusal :=
  checkedRange s readable s.base (x.val + 1) (finish (loadRegs s (regsUpTo x)) .continue)

end Sys2Proof.Machine
end

