-- ==== Sys2Proof/Machine/Keypad.lean ====
section
/-! DEFINITION. The keypad instructions and the wait step of a suspended `Fx0A` (46_keypad.md, R106 to R109). -/

namespace Sys2Proof.Machine

/-- `Ex9E` SKP Vx: the key of the low nibble of `Vx` (R106, D11). -/
def execSkpVx (x : Reg) (s : State) : Host.Outcome State Fault Refusal :=
  finish s (skipIf (s.keyPressed (lowNibble (s.reg x))))

/-- `ExA1` SKNP Vx (R107). -/
def execSknpVx (x : Reg) (s : State) : Host.Outcome State Fault Refusal :=
  finish s (skipIf (!s.keyPressed (lowNibble (s.reg x))))

/-- `Fx0A` LD Vx, K: the wait begins, with the keypad as it is now (R108). Its completion is the wait step's. -/
def execLdVxK (x : Reg) (s : State) : Host.Outcome State Fault Refusal :=
  finish { s with waitX := x, prevKeys := s.keys } .waitForKey

/-- The lowest index of a set bit (R109). -/
def lowestKey (ks : Word) : Option (Fin 16) := (List.finRange 16).find? (fun k => ks.getLsbD k.val)

/-- The keys that went from released to pressed since the last sample (R109). -/
def State.newKeys (s : State) : Word := s.keys &&& ~~~s.prevKeys

/-- The wait step: with a new key, the lowest one is stored, `PC` moves past the `Fx0A` and the engine runs; with none,
the keypad is remembered (R109). -/
def State.waitSample (s : State) : State :=
  match lowestKey s.newKeys with
  | some k => { (s.setReg s.waitX (BitVec.ofNat 8 k.val)) with pc := s.pc + 2, run := .running }
  | none => { s with prevKeys := s.keys }

end Sys2Proof.Machine
end

