-- ==== Sys2Proof/Machine/Timers.lean ====
section
/-! DEFINITION. The timer instructions (45_timers.md, R103 to R105) and the tick of the Timer Unit (R121). -/

namespace Sys2Proof.Machine

/-- `Fx07` LD Vx, DT (R103). -/
def execLdVxDt (x : Reg) (s : State) : Host.Outcome State Fault Refusal := writeReg s x s.dt

/-- `Fx15` LD DT, Vx (R104). -/
def execLdDtVx (x : Reg) (s : State) : Host.Outcome State Fault Refusal := finish { s with dt := s.reg x } .continue

/-- `Fx18` LD ST, Vx (R105). -/
def execLdStVx (x : Reg) (s : State) : Host.Outcome State Fault Refusal := finish { s with st := s.reg x } .continue

/-- A counter after one tick: down by one, and 0 stays 0 (R121). -/
def countDown (b : Byte) : Byte := if b = 0#8 then 0#8 else b - 1#8

/-- Has the engine a step, and so the Timer Unit a tick and the host something to cancel (R63, R121, R127)? -/
def RunState.isActive : RunState → Bool
  | .running => true
  | .waitKey => true
  | .halted => false
  | .stopped => false

/-- `Tick`: both counters, on the same tick; in `Halted` and `Stopped` no tick is taken and the counters keep their
values (R121). -/
def State.tick (s : State) : State :=
  if s.run.isActive then { s with dt := countDown s.dt, st := countDown s.st } else s

end Sys2Proof.Machine
end

