-- ==== Sys2Proof/Machine/Environment.lean ====
section
/-! DEFINITION. The other agents (R43): the host's load, launch and cancel, the input layer's key writes, and the ports
that the host, the renderer and the audio device read (R30). -/

namespace Sys2Proof.Machine

/-! ### Load and launch (R115, R132, R133) -/

/-- Why the host's `load` fails (R12, R110). -/
inductive LoadError where
  /-- The ROM is longer than 3584 bytes (R115). -/
  | romTooLarge
deriving DecidableEq, Repr

/-- `load(rom)`: the bytes copied from 0x200 upwards, or the load error and nothing written (R132). -/
def State.load (s : State) (rom : List Byte) : Except LoadError State :=
  if rom.length ≤ Config.romMax then .ok { s with mem := s.mem.writeBytes Config.romBase rom }
  else .error .romTooLarge

/-- The launch state: reset, then a successful load (R133). -/
def launchState (rom : List Byte) : Except LoadError State := State.reset.load rom

/-! ### Cancel and keys (R124, R127) -/

/-- `Cancel`: `Stopped`, and nothing else; in `Halted` or `Stopped` it has no effect (R127). -/
def State.cancel (s : State) : State := if s.run.isActive then { s with run := .stopped } else s

/-- `set_pressed(key, pressed)`: one key's bit, whatever `run` is (R124). -/
def State.setPressed (s : State) (key : Fin 16) (pressed : Bool) : State :=
  { s with
    keys := if pressed then s.keys ||| BitVec.twoPow 16 key.val else s.keys &&& ~~~(BitVec.twoPow 16 key.val) }

/-! ### Ports that others read (R30). Reading has no side effect. -/

/-- Framebuffer port B: the pixel at the linear bit address `y * 64 + x` (R23, R125). -/
def State.fbData (s : State) (fbAddr : BitVec 11) : Bool :=
  pixel s.fb (fbAddr.extractLsb' 0 6).toFin (fbAddr.extractLsb' 6 5).toFin

/-- The `sound` output, 8 bits (R123). -/
def State.sound (s : State) : Byte := s.st

/-- The `sound_active` output (R123). -/
def State.soundActive (s : State) : Bool := s.st != 0#8

/-- The numeric code of a fault kind, as `fault_kind` shows it (R110; D15). -/
def FaultKind.code : FaultKind → BitVec 3
  | .noFault => 0#3
  | .unknownOpcode => 1#3
  | .stackOverflow => 2#3
  | .stackUnderflow => 3#3
  | .invalidAddress => 4#3

/-- The status the host reads: `run`, `fault_kind` and `fault_info` (R29, R30, R50). -/
def State.status (s : State) : RunState × BitVec 3 × Word := (s.run, s.faultKind.code, s.faultInfo)

end Sys2Proof.Machine
end

