-- ==== Sys2Proof/Machine/Engine.lean ====
section
/-! DEFINITION. The engine's step (40_dispatch.md, R63 to R69), the transition of each agent (R43), and the placing of a
word where the next instruction is fetched. -/

namespace Sys2Proof.Machine

/-- The instruction step: fetch, decode, execute, each with its fault, in that order of priority (R64, R65, R68,
R116). -/
def runInstruction (s : State) : Host.Outcome State Fault Refusal :=
  if fetchable s.pc then
    match decode s.fetchWord with
    | .ok i => exec i s
    | .error _ => raise s .unknownOpcode s.fetchWord
  else raise s .invalidAddress s.pc

/-- One step of the engine (R63, R68). In `Halted` and `Stopped` it has none. -/
def engineStep (s : State) : Host.Outcome State Fault Refusal :=
  match s.run with
  | .running => runInstruction s
  | .waitKey => .next s.waitSample
  | .halted => .fault .engineHalted
  | .stopped => .fault .engineStopped

/-- A launch: the launch state of the ROM (R133). What is the model's own, the turn of the agents and the number of the
next draw, goes on. A ROM that is too large leaves no launch state (R115). -/
def launch (rom : List Byte) (s : State) : Host.Outcome State Fault Refusal :=
  match launchState rom with
  | .ok t => .next { t with draws := s.draws, schedule := s.schedule }
  | .error _ => .fault .romTooLarge

/-- One transition of one agent, atomic (R42, R44). -/
def transition (e : Event) (s : State) : Host.Outcome State Fault Refusal :=
  match e with
  | .engine => engineStep s
  | .tick => .next s.tick
  | .setKey key pressed => .next (s.setPressed key pressed)
  | .cancel => .next s.cancel
  | .launch rom => launch rom s

/-- The next transition in the total order (R44): the first of the schedule, or the engine's when none is listed. -/
def nextTransition (s : State) : Host.Outcome State Fault Refusal :=
  match s.schedule with
  | [] => engineStep s
  | e :: rest => transition e { s with schedule := rest }

/-- `s` with the word of a table row placed where the next instruction is fetched, and everything else that its running
in the very next step takes: the engine runs and has the next turn, and `PC` is one that can be fetched from (0x200
where it was not). This stands for a load from outside the machine (assumption log 5). -/
def placeWord (s : State) (w : Word) : State :=
  let a : Word := if fetchable s.pc then s.pc else BitVec.ofNat 16 Config.romBase
  { s with
    pc := a
    mem := s.mem.writeBytes a.toNat (bytesOfWord w)
    run := .running
    schedule := match s.schedule with
      | [] => []
      | e :: rest => .engine :: e :: rest }

end Sys2Proof.Machine
end

