-- ==== Sys2Proof/Machine/Step.lean ====
section
/-! DEFINITION. One step of the machine: one transition of the agent whose turn it is. -/

namespace Sys2Proof.Machine

/-- One step: the next transition in the total order of rule R44. With an empty schedule it is the engine's own step,
rule R68. -/
def step : State → Host.Outcome State Fault Refusal := nextTransition

/-- `s` with the instruction word of an opcode-table row stored where the next step fetches it. -/
def State.withFetchWord (s : State) (nbits w : Nat) : State := placeWord s (tableWord nbits w)

end Sys2Proof.Machine
end

