-- ==== Sys2Proof/Machine/Assembly.lean ====
section
/-! DEFINITION. The assembler syntax (R55, R61, R62; D28): the mnemonics, the operand spellings, the instruction a line
stands for, the line of an instruction, and its text. Destination first; no pseudo-instruction, and no `SYS`. -/

namespace Sys2Proof

/-- The mnemonics of rule R55. -/
inductive Mnemonic where
  | CLS | RET | JP | CALL | SE | SNE | LD | ADD | OR | AND | XOR | SUB | SHR | SUBN | SHL | RND | DRW | SKP | SKNP
deriving DecidableEq, Repr

/-- The operand spellings of rule R61. -/
inductive Operand where
  /-- `V0`..`VF`. -/
  | reg (x : Reg)
  /-- A number: `kk`, `n` or `nnn`, in decimal or hexadecimal. -/
  | num (k : Nat)
  /-- `I`. -/
  | index
  /-- `DT`. -/
  | delay
  /-- `ST`. -/
  | sound
  /-- `K`. -/
  | key
  /-- `F`. -/
  | glyph
  /-- `B`. -/
  | decimal
  /-- `[I]`. -/
  | memory
deriving DecidableEq, Repr

/-- A line of assembly. -/
structure AsmLine where
  mnemonic : Mnemonic
  operands : List Operand
deriving DecidableEq, Repr

/-- A number that a field of `w` bits can hold: 0..255 for `kk`, 0..4095 for `nnn` (R61). -/
def fieldOf (w k : Nat) : Option (BitVec w) := if k < 2 ^ w then some (BitVec.ofNat w k) else none

/-- The instruction that a line stands for, if it stands for one (R55, R61). `SHR Vx` and `SHL Vx` may omit `Vy`; the
assembler then puts `y = 0`. -/
def assemble (l : AsmLine) : Option Instr :=
  match l.mnemonic, l.operands with
  | .CLS, [] => some .cls
  | .RET, [] => some .ret
  | .JP, [.num k] => (fieldOf 12 k).map .jpNnn
  | .JP, [.reg x, .num k] => if x = 0 then (fieldOf 12 k).map .jpV0Nnn else none
  | .CALL, [.num k] => (fieldOf 12 k).map .callNnn
  | .SE, [.reg x, .num k] => (fieldOf 8 k).map (.seVxKk x)
  | .SE, [.reg x, .reg y] => some (.seVxVy x y)
  | .SNE, [.reg x, .num k] => (fieldOf 8 k).map (.sneVxKk x)
  | .SNE, [.reg x, .reg y] => some (.sneVxVy x y)
  | .LD, [.reg x, .num k] => (fieldOf 8 k).map (.ldVxKk x)
  | .LD, [.reg x, .reg y] => some (.ldVxVy x y)
  | .LD, [.index, .num k] => (fieldOf 12 k).map .ldINnn
  | .LD, [.reg x, .delay] => some (.ldVxDt x)
  | .LD, [.reg x, .key] => some (.ldVxK x)
  | .LD, [.delay, .reg x] => some (.ldDtVx x)
  | .LD, [.sound, .reg x] => some (.ldStVx x)
  | .LD, [.glyph, .reg x] => some (.ldFVx x)
  | .LD, [.decimal, .reg x] => some (.ldBVx x)
  | .LD, [.memory, .reg x] => some (.ldMemVx x)
  | .LD, [.reg x, .memory] => some (.ldVxMem x)
  | .ADD, [.reg x, .num k] => (fieldOf 8 k).map (.addVxKk x)
  | .ADD, [.reg x, .reg y] => some (.addVxVy x y)
  | .ADD, [.index, .reg x] => some (.addIVx x)
  | .OR, [.reg x, .reg y] => some (.orVxVy x y)
  | .AND, [.reg x, .reg y] => some (.andVxVy x y)
  | .XOR, [.reg x, .reg y] => some (.xorVxVy x y)
  | .SUB, [.reg x, .reg y] => some (.subVxVy x y)
  | .SHR, [.reg x, .reg y] => some (.shrVxVy x y)
  | .SHR, [.reg x] => some (.shrVxVy x 0)
  | .SUBN, [.reg x, .reg y] => some (.subnVxVy x y)
  | .SHL, [.reg x, .reg y] => some (.shlVxVy x y)
  | .SHL, [.reg x] => some (.shlVxVy x 0)
  | .RND, [.reg x, .num k] => (fieldOf 8 k).map (.rndVxKk x)
  | .DRW, [.reg x, .reg y, .num k] => if k < 16 then some (.drwVxVyN x y k) else none
  | .SKP, [.reg x] => some (.skpVx x)
  | .SKNP, [.reg x] => some (.sknpVx x)
  | _, _ => none

/-- The line of an instruction, with every operand written (R55, R62). -/
def asmOf : Instr → AsmLine
  | .cls => ⟨.CLS, []⟩
  | .ret => ⟨.RET, []⟩
  | .jpNnn nnn => ⟨.JP, [.num nnn.toNat]⟩
  | .callNnn nnn => ⟨.CALL, [.num nnn.toNat]⟩
  | .seVxKk x kk => ⟨.SE, [.reg x, .num kk.toNat]⟩
  | .sneVxKk x kk => ⟨.SNE, [.reg x, .num kk.toNat]⟩
  | .seVxVy x y => ⟨.SE, [.reg x, .reg y]⟩
  | .ldVxKk x kk => ⟨.LD, [.reg x, .num kk.toNat]⟩
  | .addVxKk x kk => ⟨.ADD, [.reg x, .num kk.toNat]⟩
  | .ldVxVy x y => ⟨.LD, [.reg x, .reg y]⟩
  | .orVxVy x y => ⟨.OR, [.reg x, .reg y]⟩
  | .andVxVy x y => ⟨.AND, [.reg x, .reg y]⟩
  | .xorVxVy x y => ⟨.XOR, [.reg x, .reg y]⟩
  | .addVxVy x y => ⟨.ADD, [.reg x, .reg y]⟩
  | .subVxVy x y => ⟨.SUB, [.reg x, .reg y]⟩
  | .shrVxVy x y => ⟨.SHR, [.reg x, .reg y]⟩
  | .subnVxVy x y => ⟨.SUBN, [.reg x, .reg y]⟩
  | .shlVxVy x y => ⟨.SHL, [.reg x, .reg y]⟩
  | .sneVxVy x y => ⟨.SNE, [.reg x, .reg y]⟩
  | .ldINnn nnn => ⟨.LD, [.index, .num nnn.toNat]⟩
  | .jpV0Nnn nnn => ⟨.JP, [.reg 0, .num nnn.toNat]⟩
  | .rndVxKk x kk => ⟨.RND, [.reg x, .num kk.toNat]⟩
  | .drwVxVyN x y n => ⟨.DRW, [.reg x, .reg y, .num n]⟩
  | .skpVx x => ⟨.SKP, [.reg x]⟩
  | .sknpVx x => ⟨.SKNP, [.reg x]⟩
  | .ldVxDt x => ⟨.LD, [.reg x, .delay]⟩
  | .ldVxK x => ⟨.LD, [.reg x, .key]⟩
  | .ldDtVx x => ⟨.LD, [.delay, .reg x]⟩
  | .ldStVx x => ⟨.LD, [.sound, .reg x]⟩
  | .addIVx x => ⟨.ADD, [.index, .reg x]⟩
  | .ldFVx x => ⟨.LD, [.glyph, .reg x]⟩
  | .ldBVx x => ⟨.LD, [.decimal, .reg x]⟩
  | .ldMemVx x => ⟨.LD, [.memory, .reg x]⟩
  | .ldVxMem x => ⟨.LD, [.reg x, .memory]⟩

/-- How a mnemonic is written (R55). -/
def Mnemonic.text : Mnemonic → String
  | .CLS => "CLS"
  | .RET => "RET"
  | .JP => "JP"
  | .CALL => "CALL"
  | .SE => "SE"
  | .SNE => "SNE"
  | .LD => "LD"
  | .ADD => "ADD"
  | .OR => "OR"
  | .AND => "AND"
  | .XOR => "XOR"
  | .SUB => "SUB"
  | .SHR => "SHR"
  | .SUBN => "SUBN"
  | .SHL => "SHL"
  | .RND => "RND"
  | .DRW => "DRW"
  | .SKP => "SKP"
  | .SKNP => "SKNP"

/-- How an operand is written, a number in decimal (R61). -/
def Operand.text : Operand → String
  | .reg x => "V" ++ ["0", "1", "2", "3", "4", "5", "6", "7", "8", "9", "A", "B", "C", "D", "E", "F"].getD x.val ""
  | .num k => toString k
  | .index => "I"
  | .delay => "DT"
  | .sound => "ST"
  | .key => "K"
  | .glyph => "F"
  | .decimal => "B"
  | .memory => "[I]"

/-- How a line is written: "a mnemonic, then comma-separated operands, destination first" (R61). -/
def AsmLine.text (l : AsmLine) : String :=
  match l.operands with
  | [] => l.mnemonic.text
  | ops => l.mnemonic.text ++ " " ++ String.intercalate ", " (ops.map Operand.text)

end Sys2Proof
end

