-- ==== Sys2Proof/Safety.lean ====
section
/-! DEFINITION. The terms that claims about the machine use: what an outcome answers, what a transition leaves
unchanged, which pixels a sprite sets, the addresses of a range, and the invariant of the machine. -/

namespace Sys2Proof.Machine

/-- The outcome is a next state, and `P` holds of it. -/
def Answers (o : Host.Outcome State Fault Refusal) (P : State → Prop) : Prop := ∃ t, o = .next t ∧ P t

/-! ### Frames -/

/-- Every byte of memory reads as before. -/
def SameMemory (s t : State) : Prop := ∀ a, t.mem.read a = s.mem.read a

/-- Nothing changes but `PC`. -/
def OnlyPc (s t : State) : Prop := SameMemory s t ∧ t = { s with pc := t.pc }

/-- Nothing changes but general registers and `PC`. -/
def OnlyRegistersAndPc (s t : State) : Prop := SameMemory s t ∧ t = { s with v := t.v, pc := t.pc }

/-- `PC` is past this instruction, and nothing else changes but `V[x]`. -/
def WritesOnly (x : Reg) (s t : State) : Prop :=
  t.pc = s.pc + 2 ∧ (∀ r, r ≠ x → t.reg r = s.reg r) ∧ OnlyRegistersAndPc s t

/-- `PC` is past this instruction, and nothing else changes but `V[x]` and the flag register. -/
def WritesOnlyWithFlag (x : Reg) (s t : State) : Prop :=
  t.pc = s.pc + 2 ∧ (∀ r, r ≠ x → r ≠ regF → t.reg r = s.reg r) ∧ OnlyRegistersAndPc s t

/-- May the instruction write the general register `r`: as its destination, as one of the block `V0..Vx` that `Fx65`
loads, or as the flag (R15)? `Fx0A` is not one of these: its register is written by the wait step (R109). -/
def mayWrite (i : Instr) (r : Reg) : Prop :=
  match i with
  | .ldVxKk x _ | .addVxKk x _ | .rndVxKk x _ | .ldVxDt x => r = x
  | .ldVxVy x _ | .orVxVy x _ | .andVxVy x _ | .xorVxVy x _ => r = x
  | .addVxVy x _ | .subVxVy x _ | .shrVxVy x _ | .subnVxVy x _ | .shlVxVy x _ => r = x ∨ r = regF
  | .drwVxVyN _ _ _ => r = regF
  | .ldVxMem x => r ≤ x
  | .cls | .ret | .jpNnn _ | .callNnn _ | .seVxKk _ _ | .sneVxKk _ _ | .seVxVy _ _ | .sneVxVy _ _ => False
  | .ldINnn _ | .jpV0Nnn _ | .skpVx _ | .sknpVx _ | .ldVxK _ | .ldDtVx _ | .ldStVx _ | .addIVx _ => False
  | .ldFVx _ | .ldBVx _ | .ldMemVx _ => False

/-! ### Ranges of addresses (R38) -/

/-- `b` is the lowest of the `k` addresses from `a` of which `bad` holds. -/
def IsLowest (bad : Nat → Prop) (a k b : Nat) : Prop :=
  a ≤ b ∧ b < a + k ∧ bad b ∧ ∀ c, a ≤ c → c < b → ¬ bad c

/-- An address that a data read faults on (R36). -/
def UnreadableAddress (a : Nat) : Prop := 0xFFF < a

/-- An address that a data write faults on (R37). -/
def UnwritableAddress (a : Nat) : Prop := a < 0x200 ∨ 0xFFF < a

/-! ### Sprites (R101, R102) -/

/-- The sprite of `n` rows at `I`, drawn at `(V[x], V[y])` with wrapping, has a set bit on the pixel `(px, py)`: in some
row `r` and column `k`, bit `7 - k` of the byte at `I + r`. -/
def SpriteCovers (s : State) (x y : Reg) (n : Nat) (px : Fin 64) (py : Fin 32) : Prop :=
  ∃ r k, r < n ∧ k < 8 ∧ (s.mem.read (s.i.toNat + r)).getLsbD (7 - k) = true ∧
    ((s.reg x).toNat + k) % 64 = px.val ∧ ((s.reg y).toNat + r) % 32 = py.val

/-! ### The invariant -/

/-- What holds of the machine at reset and is kept by every transition of every agent. -/
structure MachineInvariant (s : State) : Prop where
  /-- The memory is in its canonical form. -/
  memoryCanonical : s.mem.wf
  /-- "The rule R37 check keeps them constant": the reserved region reads as at reset (R35). -/
  reservedIntact : ∀ a, a < 0x200 → s.mem.read a = resetByte a
  /-- "With the rules of this spec `I` never holds a value above 0xFFF" (R16). -/
  indexInRange : s.i.toNat ≤ 0xFFF
  /-- "largest value formed: `0x10FE` by `Bnnn`" (R17). -/
  pcBounded : s.pc.toNat ≤ 0x10FE
  /-- A stack slot holds an even address that is at most 0x1000, the address after a fetched call (R86). -/
  stackEven : ∀ j : Fin 16, s.stack[j].toNat % 2 = 0 ∧ s.stack[j].toNat ≤ 0x1000
  /-- The engine is halted exactly when a fault is recorded (R27, R29). -/
  haltedIffFault : s.run = .halted ↔ s.faultKind ≠ .noFault
  /-- With no fault recorded, the information is 0x0000 (R110). -/
  noFaultNoInfo : s.faultKind = .noFault → s.faultInfo = 0#16
  /-- While the engine waits, "PC still holds the Fx0A's address" and `wait_x` its field `x` (R28, R109). -/
  waitingAtKeyInstruction : s.run = .waitKey → fetchable s.pc = true ∧ decode s.fetchWord = .ok (.ldVxK s.waitX)

/-! ### Agreement of two states, for what cannot be observed -/

/-- The two states differ at most in stack slots that are not occupied (R19). -/
def SameButStaleSlots (s t : State) : Prop :=
  t = { s with stack := t.stack } ∧ ∀ j : Fin 16, j.val < s.sp.val → t.stack[j] = s.stack[j]

/-- Two outcomes of one kind, whose next states are related. -/
def OutcomesRelated (R : State → State → Prop) : (o p : Host.Outcome State Fault Refusal) → Prop
  | .next s, .next t => R s t
  | .fault f, .fault g => f = g
  | .refused f, .refused g => f = g
  | .next _, .fault _ => False
  | .next _, .refused _ => False
  | .fault _, .next _ => False
  | .fault _, .refused _ => False
  | .refused _, .next _ => False
  | .refused _, .fault _ => False

end Sys2Proof.Machine
end

