-- ==== Sys2Proof/Certificates/Slice0/Obligations.lean ====
section
/-! DEFINITION. The statements about the machine. A docstring names the rule of spec/ that a statement formalises, and
says where a clause rests on a choice that the spec marks as its own (D<n> of 92_eei_decisions.md), on a passage it
marks as general knowledge (GK<n> of 93_implementation_defined.md), or on a field of the model's own (an assumption log
entry). -/

open Sys2Proof Sys2Proof.Machine

/-! ### Encoding -/

/-- Decoding the encoding of a well-formed instruction gives it back, with every operand at every value (R52 to
R56). -/
def Obligations.DecodeOfEncodeIsTheInstruction : Prop :=
  ∀ i : Instr, i.wellFormed = true → decode (encode i) = .ok i

/-- A word that decodes has one meaning: it is the encoding of the instruction it decodes to, and that instruction is
well-formed. No bit of a decoded word is dropped (R57; R59's second sentence). -/
def Obligations.EncodeOfDecodeIsTheWord : Prop :=
  ∀ (w : Word) (i : Instr), decode w = .ok i → encode i = w ∧ i.wellFormed = true

/-- A word matches exactly one row of the opcode table, the row of the instruction it decodes to, or none and is
rejected (R57, marked as derived by the spec). -/
def Obligations.WordMatchesOneRowOrNone : Prop :=
  ∀ w : Word, opcodeTable.filter (fun r => r.matchesWord w) =
    match decode w with
    | .ok i => [i.row]
    | .error _ => []

/-- The words that are no instruction are exactly those that rule R58 lists, class by class (D16), and each is
rejected by name. -/
def Obligations.UnknownOpcodesAreThoseListed : Prop :=
  ∀ w : Word, (decode w = .error (.unknownOpcode w) ↔
    (w.toNat / 4096 = 0x0 ∧ w.toNat ≠ 0x00E0 ∧ w.toNat ≠ 0x00EE) ∨
    (w.toNat / 4096 = 0x5 ∧ w.toNat % 16 ≠ 0) ∨
    (w.toNat / 4096 = 0x8 ∧ w.toNat % 16 ∈ [0x8, 0x9, 0xA, 0xB, 0xC, 0xD, 0xF]) ∨
    (w.toNat / 4096 = 0x9 ∧ w.toNat % 16 ≠ 0) ∨
    (w.toNat / 4096 = 0xE ∧ w.toNat % 256 ∉ [0x9E, 0xA1]) ∨
    (w.toNat / 4096 = 0xF ∧ w.toNat % 256 ∉ [0x07, 0x0A, 0x15, 0x18, 0x1E, 0x29, 0x33, 0x55, 0x65])) ∧
    ∀ e, decode w = .error e → e = .unknownOpcode w

/-- Words written out from the encodings of rule R53 decode to the instructions they stand for. -/
def Obligations.WrittenOutWordsDecode : Prop :=
  decode 0b0000000011100000#16 = .ok .cls ∧ decode 0b0010001000010000#16 = .ok (.callNnn 0x210#12) ∧
    decode 0b0110000000001010#16 = .ok (.ldVxKk 0 0x0A#8) ∧ decode 0b1000000000010100#16 = .ok (.addVxVy 0 1) ∧
    decode 0b1101000100100101#16 = .ok (.drwVxVyN 1 2 5) ∧ decode 0b1110000110011110#16 = .ok (.skpVx 1) ∧
    decode 0b1111001001100101#16 = .ok (.ldVxMem 2)

/-- "Every instruction is one 16-bit word, two bytes, fetched big-endian from `Mem[PC]` (bits 15..8) and `Mem[PC+1]`
(bits 7..0)", with "no other length, no prefix" (R51): decoding bytes takes two of them, whatever stands after, and takes
no bytes but those of an instruction's word. That no mode changes the decoding is `decode`'s type. -/
def Obligations.InstructionIsTwoBytesBigEndian : Prop :=
  (∀ s : State, s.fetchWord.toNat = (s.mem.read s.pc.toNat).toNat * 256 + (s.mem.read (s.pc.toNat + 1)).toNat) ∧
    (∀ (i : Instr) (rest : List Byte), i.wellFormed = true →
      decodeBytes (bytesOfWord (encode i) ++ rest) = .ok (i, rest)) ∧
    ∀ (bs : List Byte) (i : Instr) (rest : List Byte), decodeBytes bs = .ok (i, rest) →
      bs = bytesOfWord (encode i) ++ rest ∧ i.wellFormed = true

/-- The line of assembly of a well-formed instruction, with the mnemonics and operand spellings of rules R55 and R61,
assembles to that instruction; `SHR Vx` and `SHL Vx` may omit `Vy`, and then `y` is 0 (R61; D28, GK1). -/
def Obligations.AssemblyNamesOneInstruction : Prop :=
  (∀ i : Instr, i.wellFormed = true → assemble (asmOf i) = some i) ∧
    ∀ x : Reg, assemble ⟨.SHR, [.reg x]⟩ = some (.shrVxVy x 0) ∧ assemble ⟨.SHL, [.reg x]⟩ = some (.shlVxVy x 0)

/-! ### The step -/

/-- "The engine has a step exactly when `run` is `Running` or `WaitKey`", and which step it has (R63). -/
def Obligations.EngineStepsExactlyWhenActive : Prop :=
  ∀ s : State, ((∃ t, engineStep s = .next t) ↔ (s.run = .running ∨ s.run = .waitKey)) ∧
    (s.run = .running → engineStep s = runInstruction s) ∧
    (s.run = .waitKey → engineStep s = .next s.waitSample) ∧
    (s.run = .halted → engineStep s = .fault .engineHalted) ∧
    (s.run = .stopped → engineStep s = .fault .engineStopped)

/-- On the engine's turn a step is the engine's step, in every case (R44, R68): of the state itself when the schedule is
empty, and of the state with that turn taken when the engine's is the first listed. The schedule, and that the engine
steps when it is empty, are the model's own (assumption log 4). -/
def Obligations.EngineTurnIsTheEngineStep : Prop :=
  ∀ s : State, (s.schedule = [] → step s = engineStep s) ∧
    ∀ rest, s.schedule = .engine :: rest → step s = engineStep { s with schedule := rest }

/-- When the word at a `PC` that can be fetched from decodes to `i`, a step is `exec` of `i`; where the schedule lists
the engine's turn, of the state with that turn taken (R65; the schedule is the model's own, assumption log 4). -/
def Obligations.StepRunsTheDecodedInstruction : Prop :=
  ∀ (s : State) (i : Instr), s.run = .running → s.pc.toNat % 2 = 0 → s.pc.toNat ≤ 0xFFE →
    decode s.fetchWord = .ok i →
    (s.schedule = [] → step s = exec i s) ∧
    ∀ rest, s.schedule = .engine :: rest → step s = exec i { s with schedule := rest }

/-- "If no row matches, `raise UnknownOpcode(w)`. Otherwise the matched instruction's rule is performed with those
fields" (R65): after a fetch, the word that matches no row of the opcode table faults with itself, and any other runs
the well-formed instruction whose row it matches and whose encoding it is, so with its fields. -/
def Obligations.DecodedWordRunsOrFaults : Prop :=
  ∀ s : State, s.pc.toNat % 2 = 0 → s.pc.toNat ≤ 0xFFE →
    ((∀ r ∈ opcodeTable, r.matchesWord s.fetchWord = false) →
      runInstruction s = .next (s.enterFault .unknownOpcode s.fetchWord)) ∧
    ∀ r ∈ opcodeTable, r.matchesWord s.fetchWord = true →
      ∃ i, i.row = r ∧ i.wellFormed = true ∧ encode i = s.fetchWord ∧ runInstruction s = exec i s

/-- An odd `PC`, or one above 0xFFE, faults at the fetch with `InvalidAddress(PC)` (R64; the choice of the fetch is
D7). That the engine steps when the schedule is empty is the model's own (assumption log 4); for its listed turn, see
EngineTurnIsTheEngineStep. -/
def Obligations.BadPcFaultsAtFetch : Prop :=
  ∀ s : State, s.run = .running → s.schedule = [] → (s.pc.toNat % 2 = 1 ∨ 0xFFE < s.pc.toNat) →
    step s = .next (s.enterFault .invalidAddress s.pc)

/-- A step has no next state only where the engine has none (R63), or where a launch is given a ROM that is too large
(R115); nothing is refused. The schedule is the model's own (assumption log 4), and so is the launch as one event
(assumption log 6). -/
def Obligations.StepStopsOnlyWithoutATransition : Prop :=
  ∀ s : State, (∃ t, step s = .next t) ∨
    (step s = .fault .engineHalted ∧ s.run = .halted ∧ (s.schedule = [] ∨ s.schedule.head? = some .engine)) ∨
    (step s = .fault .engineStopped ∧ s.run = .stopped ∧ (s.schedule = [] ∨ s.schedule.head? = some .engine)) ∨
    (step s = .fault .romTooLarge ∧ ∃ rom, s.schedule.head? = some (.launch rom) ∧ 3584 < rom.length)

/-! ### Loads, arithmetic, logic, shifts, random (41_arith.md) -/

/-- `6xkk`, which is 0x6000 with the fields `x` and `kk`: "`V[x] <- kk`; return `Continue`" (R70). -/
def Obligations.LoadImmediateWritesVx : Prop :=
  ∀ (x : Reg) (kk : Byte) (s : State), (encode (.ldVxKk x kk)).toNat = 0x6000 + 256 * x.val + kk.toNat ∧
    Answers (exec (.ldVxKk x kk) s) fun t => t.reg x = kk ∧ WritesOnly x s t

/-- `7xkk`: the sum modulo 256, and no flag: `VF` is unchanged unless it is the destination (R71; GK2, D9). -/
def Obligations.AddImmediateWrapsWithoutFlag : Prop :=
  ∀ (x : Reg) (kk : Byte) (s : State), Answers (exec (.addVxKk x kk) s) fun t =>
    (t.reg x).toNat = ((s.reg x).toNat + kk.toNat) % 256 ∧ WritesOnly x s t

/-- `8xy0` to `8xy3`: copy, OR, AND and XOR, bit by bit, and no flag (R72 to R75; GK2, D9). -/
def Obligations.CopyAndLogicAreBitwise : Prop :=
  ∀ (x y : Reg) (s : State),
    (Answers (exec (.ldVxVy x y) s) fun t => t.reg x = s.reg y ∧ WritesOnly x s t) ∧
    (Answers (exec (.orVxVy x y) s) fun t =>
      (∀ k, (t.reg x).getLsbD k = ((s.reg x).getLsbD k || (s.reg y).getLsbD k)) ∧ WritesOnly x s t) ∧
    (Answers (exec (.andVxVy x y) s) fun t =>
      (∀ k, (t.reg x).getLsbD k = ((s.reg x).getLsbD k && (s.reg y).getLsbD k)) ∧ WritesOnly x s t) ∧
    (Answers (exec (.xorVxVy x y) s) fun t =>
      (∀ k, (t.reg x).getLsbD k = ((s.reg x).getLsbD k ^^ (s.reg y).getLsbD k)) ∧ WritesOnly x s t)

/-- `8xy4`: the sum modulo 256, and `VF` the carry (R76). With `x = F` the flag is what `VF` ends with (D8). -/
def Obligations.AddSetsCarry : Prop :=
  ∀ (x y : Reg) (s : State), Answers (exec (.addVxVy x y) s) fun t =>
    (x ≠ regF → (t.reg x).toNat = ((s.reg x).toNat + (s.reg y).toNat) % 256) ∧
    (t.reg regF).toNat = (if (s.reg x).toNat + (s.reg y).toNat > 255 then 1 else 0) ∧ WritesOnlyWithFlag x s t

/-- `8xy5`: the difference modulo 256, and `VF` not-borrow (R77). With `x = F` the flag is what `VF` ends with (D8). -/
def Obligations.SubtractSetsNotBorrow : Prop :=
  ∀ (x y : Reg) (s : State), Answers (exec (.subVxVy x y) s) fun t =>
    (x ≠ regF → ((t.reg x).toNat : Int) = (((s.reg x).toNat : Int) - (s.reg y).toNat) % 256) ∧
    (t.reg regF).toNat = (if (s.reg x).toNat ≥ (s.reg y).toNat then 1 else 0) ∧ WritesOnlyWithFlag x s t

/-- `8xy7`: the reverse difference modulo 256, and `VF` not-borrow (R79). With `x = F` the flag is what `VF` ends with
(D8). -/
def Obligations.ReverseSubtractSetsNotBorrow : Prop :=
  ∀ (x y : Reg) (s : State), Answers (exec (.subnVxVy x y) s) fun t =>
    (x ≠ regF → ((t.reg x).toNat : Int) = (((s.reg y).toNat : Int) - (s.reg x).toNat) % 256) ∧
    (t.reg regF).toNat = (if (s.reg y).toNat ≥ (s.reg x).toNat then 1 else 0) ∧ WritesOnlyWithFlag x s t

/-- `8xy6` and `8xyE`: `Vx` halved, or doubled modulo 256, and `VF` the bit shifted out, whatever `y` is (R59, R78,
R80). With `x = F` the flag is what `VF` ends with (D8). -/
def Obligations.ShiftsSetTheBitShiftedOut : Prop :=
  ∀ (x y : Reg) (s : State),
    (Answers (exec (.shrVxVy x y) s) fun t =>
      (x ≠ regF → (t.reg x).toNat = (s.reg x).toNat / 2) ∧ (t.reg regF).toNat = (s.reg x).toNat % 2 ∧
        WritesOnlyWithFlag x s t) ∧
    (Answers (exec (.shlVxVy x y) s) fun t =>
      (x ≠ regF → (t.reg x).toNat = (2 * (s.reg x).toNat) % 256) ∧ (t.reg regF).toNat = (s.reg x).toNat / 128 ∧
        WritesOnlyWithFlag x s t)

/-- `Cxkk`: "`r <- RandomByte()`; `V[x] <- r & kk`; return `Continue`", with one draw for each execution (R82). The byte
drawn is a free value, so this says the same of every draw; `draws` numbers the draws and is the model's own
(assumption log 1). -/
def Obligations.RandomByteIsMasked : Prop :=
  ∀ (x : Reg) (kk : Byte) (s : State), Answers (exec (.rndVxKk x kk) s) fun t =>
    t.reg x = Config.randomByte s.draws &&& kk ∧ (kk = 0x00#8 → t.reg x = 0#8) ∧
    (kk = 0xFF#8 → t.reg x = Config.randomByte s.draws) ∧ t.draws = s.draws + 1 ∧ t.pc = s.pc + 2 ∧
    (∀ r, r ≠ x → t.reg r = s.reg r) ∧ SameMemory s t ∧ t = { s with v := t.v, pc := t.pc, draws := t.draws }

/-! ### Control transfer (42_control.md) -/

/-- `1nnn` and `Bnnn`: the target is `nnn`, or `nnn + V0` exactly, and is not checked or masked (R84, R85; GK2, D7,
D30). -/
def Obligations.JumpsGoToTheirTarget : Prop :=
  ∀ (nnn : BitVec 12) (s : State),
    (Answers (exec (.jpNnn nnn) s) fun t => t.pc.toNat = nnn.toNat ∧ OnlyPc s t) ∧
    (Answers (exec (.jpV0Nnn nnn) s) fun t => t.pc.toNat = nnn.toNat + (s.reg 0).toNat ∧ OnlyPc s t)

/-- `2nnn`, which is 0x2000 with the field `nnn`: with `SP` below 16 the address after the call is pushed and the call
jumps, to an odd target too, which faults at the next fetch; with 16 calls outstanding, `StackOverflow` of the
instruction's word and nothing else (R86). -/
def Obligations.CallPushesAndJumps : Prop :=
  ∀ (nnn : BitVec 12) (s : State), (encode (.callNnn nnn)).toNat = 0x2000 + nnn.toNat ∧
    (s.sp.val < 16 → Answers (exec (.callNnn nnn) s) fun t =>
      t.stack[s.sp.val]? = some (s.pc + 2) ∧ (∀ j : Fin 16, j.val ≠ s.sp.val → t.stack[j] = s.stack[j]) ∧
      t.sp.val = s.sp.val + 1 ∧ t.pc.toNat = nnn.toNat ∧ SameMemory s t ∧
      t = { s with stack := t.stack, sp := t.sp, pc := t.pc } ∧
      (nnn.toNat % 2 = 1 → runInstruction t = .next (t.enterFault .invalidAddress t.pc))) ∧
    (s.sp.val = 16 → exec (.callNnn nnn) s = .next (s.enterFault .stackOverflow (encode (.callNnn nnn))))

/-- `00EE`: with a call outstanding the top slot is popped into `PC`, and keeps its value; with none,
`StackUnderflow(0x00EE)` and nothing else (R87). -/
def Obligations.ReturnPopsIntoPc : Prop :=
  ∀ s : State, encode .ret = 0x00EE#16 ∧
    (0 < s.sp.val → Answers (exec .ret s) fun t =>
      t.sp.val + 1 = s.sp.val ∧ s.stack[t.sp.val]? = some t.pc ∧ SameMemory s t ∧
      t = { s with sp := t.sp, pc := t.pc }) ∧
    (s.sp.val = 0 → exec .ret s = .next (s.enterFault .stackUnderflow 0x00EE#16))

/-- "`2nnn` followed immediately by `00EE` leaves PC equal to the address immediately after the original `2nnn`
instruction, and SP returns to its pre-call value" (95_test_vectors.md E5), and everything but the stale slot is as
before. -/
def Obligations.ReturnUndoesCall : Prop :=
  ∀ (nnn : BitVec 12) (s t : State), s.sp.val < 16 → exec (.callNnn nnn) s = .next t →
    Answers (exec .ret t) fun u => u = { s with pc := s.pc + 2, stack := t.stack }

/-- `3xkk` and `4xkk`: four bytes on if `Vx` equals `kk`, or differs from it, else two (R88, R89; GK3). -/
def Obligations.ImmediateSkipsCompare : Prop :=
  ∀ (x : Reg) (kk : Byte) (s : State),
    (Answers (exec (.seVxKk x kk) s) fun t => t.pc = (if s.reg x = kk then s.pc + 4 else s.pc + 2) ∧ OnlyPc s t) ∧
    (Answers (exec (.sneVxKk x kk) s) fun t => t.pc = (if s.reg x = kk then s.pc + 2 else s.pc + 4) ∧ OnlyPc s t)

/-- `5xy0` and `9xy0`: four bytes on if `Vx` equals `Vy`, or differs from it, else two (R90, R91; GK3). -/
def Obligations.RegisterSkipsCompare : Prop :=
  ∀ (x y : Reg) (s : State),
    (Answers (exec (.seVxVy x y) s) fun t =>
      t.pc = (if s.reg x = s.reg y then s.pc + 4 else s.pc + 2) ∧ OnlyPc s t) ∧
    (Answers (exec (.sneVxVy x y) s) fun t =>
      t.pc = (if s.reg x = s.reg y then s.pc + 2 else s.pc + 4) ∧ OnlyPc s t)

/-! ### Index register and memory transfers (43_index_memory.md) -/

/-- `Annn` and `Fx29`: `I` is the address, or that of the glyph of the low nibble of `Vx`, five bytes a glyph from
`FONT_BASE` = 0x000 (R94, R96; GK2, D1, D11). -/
def Obligations.IndexLoads : Prop :=
  ∀ s : State,
    (∀ nnn : BitVec 12, Answers (exec (.ldINnn nnn) s) fun t =>
      t.i.toNat = nnn.toNat ∧ t.pc = s.pc + 2 ∧ SameMemory s t ∧ t = { s with i := t.i, pc := t.pc }) ∧
    (∀ x : Reg, Answers (exec (.ldFVx x) s) fun t =>
      t.i.toNat = 5 * ((s.reg x).toNat % 16) ∧ t.pc = s.pc + 2 ∧ SameMemory s t ∧ t = { s with i := t.i, pc := t.pc })

/-- `Fx1E`: the sum, if it is an address, and `InvalidAddress` of it and nothing else if it is not; `VF` is not written
as a flag (R95; GK2, D6). -/
def Obligations.AddIndexStaysInMemory : Prop :=
  ∀ (x : Reg) (s : State),
    (s.i.toNat + (s.reg x).toNat ≤ 0xFFF → Answers (exec (.addIVx x) s) fun t =>
      t.i.toNat = s.i.toNat + (s.reg x).toNat ∧ t.pc = s.pc + 2 ∧ SameMemory s t ∧ t = { s with i := t.i, pc := t.pc }) ∧
    (0xFFF < s.i.toNat + (s.reg x).toNat →
      exec (.addIVx x) s = .next (s.enterFault .invalidAddress (BitVec.ofNat 16 (s.i.toNat + (s.reg x).toNat))))

/-- `Fx33`: where the three bytes from `I` can be written, they become the decimal digits of `Vx`, hundreds first, and
no other byte changes (R97; GK2, GK8, D4, D5). -/
def Obligations.BcdStoresThreeDigits : Prop :=
  ∀ (x : Reg) (s : State), 0x200 ≤ s.i.toNat → s.i.toNat + 2 ≤ 0xFFF →
    Answers (exec (.ldBVx x) s) fun t =>
      (∃ h e u : Nat, h ≤ 2 ∧ e ≤ 9 ∧ u ≤ 9 ∧ (s.reg x).toNat = 100 * h + 10 * e + u ∧
        (t.mem.read s.i.toNat).toNat = h ∧ (t.mem.read (s.i.toNat + 1)).toNat = e ∧
        (t.mem.read (s.i.toNat + 2)).toNat = u) ∧
      (∀ b, b < s.i.toNat ∨ s.i.toNat + 2 < b → t.mem.read b = s.mem.read b) ∧ t.pc = s.pc + 2 ∧
      t = { s with mem := t.mem, pc := t.pc }

/-- `Fx55`: where the bytes from `I` to `I + x` can be written, they become `V0..Vx`, no other byte changes, and `I`
does not (R98; GK2, D4, D5, D10). -/
def Obligations.BlockStoreWritesRegisters : Prop :=
  ∀ (x : Reg) (s : State), 0x200 ≤ s.i.toNat → s.i.toNat + x.val ≤ 0xFFF →
    Answers (exec (.ldMemVx x) s) fun t =>
      (∀ r : Reg, r ≤ x → t.mem.read (s.i.toNat + r.val) = s.reg r) ∧
      (∀ b, b < s.i.toNat ∨ s.i.toNat + x.val < b → t.mem.read b = s.mem.read b) ∧ t.pc = s.pc + 2 ∧
      t = { s with mem := t.mem, pc := t.pc }

/-- `Fx65`: where the bytes from `I` to `I + x` can be read, `V0..Vx` become them, and no other register nor `I` changes
(R99; GK2, D5, D10). -/
def Obligations.BlockLoadReadsRegisters : Prop :=
  ∀ (x : Reg) (s : State), s.i.toNat + x.val ≤ 0xFFF →
    Answers (exec (.ldVxMem x) s) fun t =>
      (∀ r : Reg, r ≤ x → t.reg r = s.mem.read (s.i.toNat + r.val)) ∧ (∀ r : Reg, x < r → t.reg r = s.reg r) ∧
      t.pc = s.pc + 2 ∧ OnlyRegistersAndPc s t

/-- A transfer through `I` one of whose addresses fails its check faults with `InvalidAddress` of the lowest one that
does, and writes nothing: no byte, no register, no pixel (R38, R114; D4, D5, D14). -/
def Obligations.TransferFaultsOnLowestAddress : Prop :=
  ∀ (x y : Reg) (n b : Nat) (s : State),
    (IsLowest UnwritableAddress s.i.toNat 3 b →
      exec (.ldBVx x) s = .next (s.enterFault .invalidAddress (BitVec.ofNat 16 b))) ∧
    (IsLowest UnwritableAddress s.i.toNat (x.val + 1) b →
      exec (.ldMemVx x) s = .next (s.enterFault .invalidAddress (BitVec.ofNat 16 b))) ∧
    (IsLowest UnreadableAddress s.i.toNat (x.val + 1) b →
      exec (.ldVxMem x) s = .next (s.enterFault .invalidAddress (BitVec.ofNat 16 b))) ∧
    (IsLowest UnreadableAddress s.i.toNat n b →
      exec (.drwVxVyN x y n) s = .next (s.enterFault .invalidAddress (BitVec.ofNat 16 b)))

/-- "A RAM byte written by an instruction is seen by every later fetch, starting with the next instruction's fetch"
(R47; D29): after `Fx55` stores two bytes where the next instruction stands, the next fetch gives them as its word. -/
def Obligations.StoredBytesAreFetched : Prop :=
  ∀ (x : Reg) (s : State), 0x200 ≤ s.i.toNat → s.i.toNat + x.val ≤ 0xFFF →
    Answers (exec (.ldMemVx x) s) fun t =>
      ∀ q r : Reg, r ≤ x → r.val = q.val + 1 → t.pc.toNat = s.i.toNat + q.val →
        t.fetchWord.toNat = (s.reg q).toNat * 256 + (s.reg r).toNat

/-! ### Display (44_display.md) -/

/-- `00E0`: every pixel is unset and there is a new frame; `VF` is not written (R100; D20). -/
def Obligations.ClearUnsetsEveryPixel : Prop :=
  ∀ s : State, Answers (exec .cls s) fun t =>
    (∀ px py, pixel t.fb px py = false) ∧ t.frameSeq = s.frameSeq + 1 ∧ t.pc = s.pc + 2 ∧ SameMemory s t ∧
    t = { s with fb := t.fb, frameSeq := t.frameSeq, pc := t.pc }

/-- `Dxyn`: where the sprite's bytes can be read, exactly the pixels under its set bits flip, with wrapping; `VF` is 1
exactly if one of them was set, over the whole draw; and there is a new frame (R101, R102; GK6, D5, D20, D22). -/
def Obligations.DrawFlipsTheSpritesPixels : Prop :=
  ∀ (x y : Reg) (n : Nat) (s : State), n < 16 → (n = 0 ∨ s.i.toNat + n ≤ 0x1000) →
    Answers (exec (.drwVxVyN x y n) s) fun t =>
      (∀ px py, (SpriteCovers s x y n px py → pixel t.fb px py = !pixel s.fb px py) ∧
        (¬ SpriteCovers s x y n px py → pixel t.fb px py = pixel s.fb px py)) ∧
      ((∃ px py, SpriteCovers s x y n px py ∧ pixel s.fb px py = true) → t.reg regF = 1#8) ∧
      ((¬ ∃ px py, SpriteCovers s x y n px py ∧ pixel s.fb px py = true) → t.reg regF = 0#8) ∧
      t.frameSeq = s.frameSeq + 1 ∧ t.pc = s.pc + 2 ∧ (∀ r, r ≠ regF → t.reg r = s.reg r) ∧ SameMemory s t ∧
      t = { s with v := t.v, fb := t.fb, frameSeq := t.frameSeq, pc := t.pc }

/-- Drawing a sprite twice at coordinates that the flag does not change restores the framebuffer, and the second draw
collides exactly if the first set a pixel ("Drawing an 8×1 sprite of all-set bits twice", 95_test_vectors.md E6, for
every sprite). -/
def Obligations.DrawingTwiceRestoresTheScreen : Prop :=
  ∀ (x y : Reg) (n : Nat) (s t : State), n < 16 → (n = 0 ∨ s.i.toNat + n ≤ 0x1000) → x ≠ regF → y ≠ regF →
    exec (.drwVxVyN x y n) s = .next t →
    Answers (exec (.drwVxVyN x y n) t) fun u =>
      u.fb = s.fb ∧ u.frameSeq = s.frameSeq + 2 ∧
      (u.reg regF = 1#8 ↔ ∃ px py, SpriteCovers s x y n px py ∧ pixel s.fb px py = false)

/-! ### Timers (45_timers.md, R121) -/

/-- `Fx07`, `Fx15` and `Fx18` (R103 to R105; GK2). -/
def Obligations.TimerInstructionsCopy : Prop :=
  ∀ (x : Reg) (s : State),
    (Answers (exec (.ldVxDt x) s) fun t => t.reg x = s.dt ∧ WritesOnly x s t) ∧
    (Answers (exec (.ldDtVx x) s) fun t =>
      t.dt = s.reg x ∧ t.pc = s.pc + 2 ∧ SameMemory s t ∧ t = { s with dt := t.dt, pc := t.pc }) ∧
    (Answers (exec (.ldStVx x) s) fun t =>
      t.st = s.reg x ∧ t.pc = s.pc + 2 ∧ SameMemory s t ∧ t = { s with st := t.st, pc := t.pc })

/-- A tick takes one off each counter that is above 0 while the engine is active, nothing while it is not, and touches
nothing but the two counters (R121; D18). Its turn in the schedule is the model's own (assumption log 4). -/
def Obligations.TickCountsBothTimersDown : Prop :=
  ∀ (s : State) (rest : List Event), s.schedule = .tick :: rest → Answers (step s) fun t =>
    (s.run = .running ∨ s.run = .waitKey → t.dt.toNat = s.dt.toNat - 1 ∧ t.st.toNat = s.st.toNat - 1) ∧
    (s.run = .halted ∨ s.run = .stopped → t.dt = s.dt ∧ t.st = s.st) ∧
    t = { s with dt := t.dt, st := t.st, schedule := rest }

/-- After `k` ticks a timer is down by `k`, and never below 0: "Timer started at value 10 reaches 0 ... and never
decrements below 0" (95_test_vectors.md E7; R121, D18). -/
def Obligations.TicksReachZeroAndStay : Prop :=
  ∀ (k : Nat) (s : State), s.run = .running ∨ s.run = .waitKey →
    (State.tick^[k] s).dt.toNat = s.dt.toNat - k ∧ (State.tick^[k] s).st.toNat = s.st.toNat - k

/-! ### Keypad (46_keypad.md) -/

/-- `Ex9E` and `ExA1`: four bytes on if the key of the low nibble of `Vx` is pressed, or is not, else two (R106, R107;
GK3, D11). -/
def Obligations.KeySkipsReadTheKeypad : Prop :=
  ∀ (x : Reg) (s : State),
    (Answers (exec (.skpVx x) s) fun t =>
      t.pc = (if s.keys.getLsbD ((s.reg x).toNat % 16) = true then s.pc + 4 else s.pc + 2) ∧ OnlyPc s t) ∧
    (Answers (exec (.sknpVx x) s) fun t =>
      t.pc = (if s.keys.getLsbD ((s.reg x).toNat % 16) = true then s.pc + 2 else s.pc + 4) ∧ OnlyPc s t)

/-- `Fx0A`: the engine waits, with the register and the keypad noted and `PC` unchanged (R108; GK3, D12). -/
def Obligations.KeyWaitSuspends : Prop :=
  ∀ (x : Reg) (s : State), Answers (exec (.ldVxK x) s) fun t =>
    t.run = .waitKey ∧ t.waitX = x ∧ t.prevKeys = s.keys ∧ t.pc = s.pc ∧ SameMemory s t ∧
    t = { s with run := t.run, waitX := t.waitX, prevKeys := t.prevKeys }

/-- A wait step with keys that went from released to pressed stores the lowest of them and runs on past the `Fx0A`; with
none it only remembers the keypad (R109; D12). That the engine steps when the schedule is empty is the model's own
(assumption log 4); for its listed turn, see EngineTurnIsTheEngineStep. -/
def Obligations.WaitStepTakesTheLowestNewKey : Prop :=
  ∀ s : State, s.run = .waitKey → s.schedule = [] →
    (∀ k : Fin 16, s.keys.getLsbD k.val = true → s.prevKeys.getLsbD k.val = false →
      (∀ j : Fin 16, j < k → s.keys.getLsbD j.val = true → s.prevKeys.getLsbD j.val = true) →
      Answers (step s) fun t => (t.reg s.waitX).toNat = k.val ∧ t.run = .running ∧ t.pc = s.pc + 2 ∧
        (∀ r, r ≠ s.waitX → t.reg r = s.reg r) ∧ SameMemory s t ∧ t = { s with v := t.v, pc := t.pc, run := t.run }) ∧
    ((∀ k : Fin 16, s.keys.getLsbD k.val = true → s.prevKeys.getLsbD k.val = true) →
      step s = .next { s with prevKeys := s.keys })

/-- The engine "leaves `WaitKey` only by a key transition or by `cancel`" (R109, R127; D12, D25), or because the host
launches a new run (R118). Whose turn it is, the schedule says, which is the model's own (assumption log 4). -/
def Obligations.WaitEndsOnlyByKeyOrHost : Prop :=
  ∀ s t : State, s.run = .waitKey → step s = .next t → t.run ≠ .waitKey →
    ((s.schedule = [] ∨ s.schedule.head? = some .engine) ∧
      ∃ k : Fin 16, s.keys.getLsbD k.val = true ∧ s.prevKeys.getLsbD k.val = false) ∨
    s.schedule.head? = some .cancel ∨ ∃ rom, s.schedule.head? = some (.launch rom)

/-! ### Faults (60_exceptions.md) -/

/-- A fault is precise: an instruction step that halts the engine writes the run state and the fault record, and nothing
else; `PC` is that of the faulting instruction (R67, R117; D14, D15). -/
def Obligations.FaultIsPrecise : Prop :=
  ∀ s t : State, s.run = .running → engineStep s = .next t → t.run = .halted →
    t.faultKind ≠ .noFault ∧ t.pc = s.pc ∧ SameMemory s t ∧
    t = { s with run := .halted, faultKind := t.faultKind, faultInfo := t.faultInfo }

/-- "`2nnn` only `StackOverflow`, `00EE` only `StackUnderflow`, the others only `InvalidAddress`" (R116, R110), the others
being `Dxyn`, `Fx1E`, `Fx33`, `Fx55` and `Fx65`: no other instruction faults. -/
def Obligations.InstructionsRaiseOnlyTheirOwnFault : Prop :=
  ∀ (i : Instr) (s t : State), s.run = .running → exec i s = .next t → t.run = .halted →
    (∃ nnn, i = .callNnn nnn ∧ t.faultKind = .stackOverflow ∧ t.faultInfo = encode i) ∨
    (i = .ret ∧ t.faultKind = .stackUnderflow ∧ t.faultInfo = 0x00EE#16) ∨
    (t.faultKind = .invalidAddress ∧
      ((∃ x y n, i = .drwVxVyN x y n) ∨ ∃ x, i = .addIVx x ∨ i = .ldBVx x ∨ i = .ldMemVx x ∨ i = .ldVxMem x))

/-- "`Halted` is final and `fault_kind`/`fault_info` are never overwritten", and so is `Stopped`: no transition but a
launch changes anything but the keypad (R27, R118; D25). The schedule is the model's own (assumption log 4). -/
def Obligations.FinalStatesStayUntilLaunch : Prop :=
  ∀ s t : State, s.run = .halted ∨ s.run = .stopped → step s = .next t →
    (∃ rom, s.schedule.head? = some (.launch rom)) ∨ t = { s with keys := t.keys, schedule := s.schedule.tail }

/-! ### The host and the input layer (60_exceptions.md, 70_reset_and_hazards.md) -/

/-- `Cancel` stops an active engine and changes nothing else; in a final state it has no effect (R127; D25). Its turn in
the schedule is the model's own (assumption log 4). -/
def Obligations.CancelStopsAnActiveEngine : Prop :=
  ∀ (s : State) (rest : List Event), s.schedule = .cancel :: rest →
    (s.run = .running ∨ s.run = .waitKey → step s = .next { s with run := .stopped, schedule := rest }) ∧
    (s.run = .halted ∨ s.run = .stopped → step s = .next { s with schedule := rest })

/-- A key write sets that key's bit to what is written, and changes nothing else, whatever `run` is (R124; D17, D26). Its
turn in the schedule is the model's own (assumption log 4). -/
def Obligations.KeyWriteSetsOneBit : Prop :=
  ∀ (key : Fin 16) (pressed : Bool) (s : State) (rest : List Event), s.schedule = .setKey key pressed :: rest →
    Answers (step s) fun t => t.keys.getLsbD key.val = pressed ∧
      (∀ k : Fin 16, k ≠ key → t.keys.getLsbD k.val = s.keys.getLsbD k.val) ∧
      t = { s with keys := t.keys, schedule := rest }

/-- The keypad is "read-only to the VM core" (R25, R124): a transition that changes it is a key write or a launch. The
schedule is the model's own (assumption log 4). -/
def Obligations.OnlyTheHostWritesKeys : Prop :=
  ∀ s t : State, step s = .next t → t.keys ≠ s.keys →
    (∃ key pressed, s.schedule.head? = some (.setKey key pressed)) ∨ ∃ rom, s.schedule.head? = some (.launch rom)

/-- A launch with a ROM of at most 3584 bytes gives the state at reset with the ROM at 0x200 and every other byte as at
reset; a longer one gives no launch state (R115, R132, R133; D31). That the turn of the agents and the number of the
next draw go on, and that reset, load and start are one event, is the model's own (assumption log 1, 4, 6); the values at
reset are those of ResetGivesTheStatedValues (assumption log 7). -/
def Obligations.LaunchLoadsTheRom : Prop :=
  ∀ (rom : List Byte) (s : State) (rest : List Event), s.schedule = .launch rom :: rest →
    (rom.length ≤ 3584 → Answers (step s) fun t =>
      (∀ k (h : k < rom.length), t.mem.read (0x200 + k) = rom[k]) ∧
      (∀ a, a < 0x200 ∨ 0x200 + rom.length ≤ a → t.mem.read a = State.reset.mem.read a) ∧
      t = { State.reset with mem := t.mem, draws := s.draws, schedule := rest }) ∧
    (3584 < rom.length → step s = .fault .romTooLarge)

/-- What the ports show: the pixel at `y * 64 + x`, the sound timer and whether it is not 0, and the codes of the fault
kinds (R23, R110, R123, R125; D15, D20, D21). -/
def Obligations.PortsShowTheState : Prop :=
  (∀ (s : State) (px : Fin 64) (py : Fin 32), s.fbData (BitVec.ofNat 11 (py.val * 64 + px.val)) = pixel s.fb px py) ∧
    (∀ s : State, s.sound = s.st ∧ (s.soundActive = true ↔ s.st ≠ 0#8)) ∧
    [FaultKind.noFault, .unknownOpcode, .stackOverflow, .stackUnderflow, .invalidAddress].map
      (fun k => k.code.toNat) = [0, 1, 2, 3, 4]

/-- The state after reset (R130, R131): the registers, the stack, the timers, the framebuffer, the wait state, the fault
record and the keypad (D15, D26, D27), and the font in a RAM that is otherwise 0 (D1, D2, D3). That `run` is `Running` is
the model's deduction: R130 says so "once the load succeeds", and this state is what the empty ROM leaves (assumption
log 7). -/
def Obligations.ResetGivesTheStatedValues : Prop :=
  (∀ r, State.reset.reg r = 0#8) ∧ State.reset.i = 0#16 ∧ State.reset.pc = 0x200#16 ∧ State.reset.sp = 0 ∧
    (∀ j : Fin 16, State.reset.stack[j] = 0#16) ∧ State.reset.dt = 0#8 ∧ State.reset.st = 0#8 ∧
    (∀ px py, pixel State.reset.fb px py = false) ∧ State.reset.frameSeq = 0 ∧ State.reset.run = .running ∧
    State.reset.waitX = 0 ∧ State.reset.prevKeys = 0#16 ∧ State.reset.faultKind = .noFault ∧
    State.reset.faultInfo = 0#16 ∧ State.reset.keys = 0#16 ∧
    (List.range 16).map (fun d => (List.range 5).map (fun j => State.reset.mem.read (5 * d + j))) =
      [[0xF0#8, 0x90#8, 0x90#8, 0x90#8, 0xF0#8], [0x20#8, 0x60#8, 0x20#8, 0x20#8, 0x70#8],
        [0xF0#8, 0x10#8, 0xF0#8, 0x80#8, 0xF0#8], [0xF0#8, 0x10#8, 0xF0#8, 0x10#8, 0xF0#8],
        [0x90#8, 0x90#8, 0xF0#8, 0x10#8, 0x10#8], [0xF0#8, 0x80#8, 0xF0#8, 0x10#8, 0xF0#8],
        [0xF0#8, 0x80#8, 0xF0#8, 0x90#8, 0xF0#8], [0xF0#8, 0x10#8, 0x20#8, 0x40#8, 0x40#8],
        [0xF0#8, 0x90#8, 0xF0#8, 0x90#8, 0xF0#8], [0xF0#8, 0x90#8, 0xF0#8, 0x10#8, 0xF0#8],
        [0xF0#8, 0x90#8, 0xF0#8, 0x90#8, 0x90#8], [0xE0#8, 0x90#8, 0xE0#8, 0x90#8, 0xE0#8],
        [0xF0#8, 0x80#8, 0x80#8, 0x80#8, 0xF0#8], [0xE0#8, 0x90#8, 0x90#8, 0x90#8, 0xE0#8],
        [0xF0#8, 0x80#8, 0xF0#8, 0x80#8, 0xF0#8], [0xF0#8, 0x80#8, 0xF0#8, 0x80#8, 0x80#8]] ∧
    ∀ a, 80 ≤ a → State.reset.mem.read a = 0#8

/-! ### Rules of the whole machine -/

/-- Which instructions write what (R15, R16, R18 to R24, R31, R40, R126): a general register changes only where the
instruction may write it; `I`, `SP`, the stack, the timers, RAM, the framebuffer and its counter, the wait state and the
number of draws only by the instructions named; the keypad and the schedule by none. -/
def Obligations.OnlyTheNamedInstructionsWrite : Prop :=
  ∀ (i : Instr) (s t : State), exec i s = .next t →
    (∀ r, t.reg r ≠ s.reg r → mayWrite i r) ∧
    (t.i ≠ s.i → (∃ a, i = .ldINnn a) ∨ ∃ x, i = .addIVx x ∨ i = .ldFVx x) ∧
    (t.sp ≠ s.sp → i = .ret ∨ ∃ a, i = .callNnn a) ∧
    (t.stack ≠ s.stack → ∃ a, i = .callNnn a) ∧
    (t.dt ≠ s.dt → ∃ x, i = .ldDtVx x) ∧
    (t.st ≠ s.st → ∃ x, i = .ldStVx x) ∧
    ((∃ a, t.mem.read a ≠ s.mem.read a) → ∃ x, i = .ldBVx x ∨ i = .ldMemVx x) ∧
    (t.fb ≠ s.fb ∨ t.frameSeq ≠ s.frameSeq → i = .cls ∨ ∃ x y n, i = .drwVxVyN x y n) ∧
    (t.waitX ≠ s.waitX ∨ t.prevKeys ≠ s.prevKeys ∨ (t.run = .waitKey ∧ s.run ≠ .waitKey) → ∃ x, i = .ldVxK x) ∧
    (t.draws ≠ s.draws → ∃ x kk, i = .rndVxKk x kk) ∧ t.keys = s.keys ∧ t.schedule = s.schedule

/-- The invariant holds at reset: the memory is in canonical form with the reserved region intact, `I` is an address, `PC`
is at most 0x10FE, every stack slot is an even address of at most 0x1000, `run` is `Halted` exactly if a fault is
recorded, no information is recorded without a fault, and if `run` is `WaitKey` then `PC` is at its `Fx0A`. The value of
`run` at reset is the model's deduction (assumption log 7). -/
def Obligations.InvariantHoldsAtReset : Prop := MachineInvariant State.reset

/-- Every transition of every agent keeps the invariant: the memory stays in its canonical form and the reserved region
as at reset (R35), `I` stays an address (R16) and `PC` at most 0x10FE (R17), every stack slot stays an even address of at
most 0x1000 (R86), the engine is halted exactly if a fault is recorded (R27, R29), with no information without one (R110),
and a waiting engine's `PC` is at the `Fx0A` that it waits in (R109). The schedule is the model's own (assumption log 4), and a launch is one event (assumption log
6). -/
def Obligations.EveryStepKeepsTheInvariant : Prop :=
  ∀ s t : State, MachineInvariant s → step s = .next t → MachineInvariant t

/-- The sound timer and the frame counter are outputs only: "no instruction reads it" (R21), and `frame_seq` is "read by
the renderer" (R24). Two states that differ in nothing else have steps that differ in nothing else. The two draw the same
random bytes, as they number their draws alike (assumption log 1), and have one schedule, which is the model's own
(assumption log 4). -/
def Obligations.OutputsAreNotObservable : Prop :=
  ∀ s t : State, t = { s with st := t.st, frameSeq := t.frameSeq } →
    OutcomesRelated (fun u w => w = { u with st := w.st, frameSeq := w.frameSeq }) (step s) (step t)

/-- "A slot at index `>= SP` holds a stale value that no instruction can read" (R19): two states that differ in nothing
else have steps that differ in nothing else. The two draw the same random bytes (assumption log 1), and have
one schedule, which is the model's own (assumption log 4). -/
def Obligations.StaleSlotsAreNotObservable : Prop :=
  ∀ s t : State, SameButStaleSlots s t → OutcomesRelated SameButStaleSlots (step s) (step t)
end

