-- ==== Sys2Proof/Laws/Decode.lean ====
section
/-! SUPPORT. The fields of an encoded word: what each format puts where the decoder looks (R52, R53). -/

namespace Sys2Proof

@[simp] theorem toFin_regBits (x : Reg) : (regBits x).toFin = x := rfl

@[simp] theorem regBits_toFin (b : BitVec 4) : regBits b.toFin = b := rfl

/-! ### Format `nnn` -/

@[simp] theorem classOf_formatNnn (c : BitVec 4) (a : BitVec 12) : classOf (formatNnn c a) = c :=
  BitVec.extractLsb'_append_eq_left

@[simp] theorem nnnOf_formatNnn (c : BitVec 4) (a : BitVec 12) : nnnOf (formatNnn c a) = a :=
  BitVec.extractLsb'_append_eq_right

/-! ### Format `xkk` -/

@[simp] theorem kkOf_formatXkk (c : BitVec 4) (x : Reg) (kk : Byte) : kkOf (formatXkk c x kk) = kk :=
  BitVec.extractLsb'_append_eq_right

@[simp] theorem classOf_formatXkk (c : BitVec 4) (x : Reg) (kk : Byte) : classOf (formatXkk c x kk) = c := by
  apply BitVec.eq_of_getLsbD_eq
  intro i hi
  rw [classOf, formatXkk, BitVec.getLsbD_extractLsb', BitVec.getLsbD_append, BitVec.getLsbD_append]
  simp [hi, show ¬ (12 + i < 8) by omega, show ¬ (12 + i - 8 < 4) by omega, show 12 + i - 8 - 4 = i by omega]

@[simp] theorem xOf_formatXkk (c : BitVec 4) (x : Reg) (kk : Byte) : xOf (formatXkk c x kk) = x := by
  have : (formatXkk c x kk).extractLsb' 8 4 = regBits x := by
    apply BitVec.eq_of_getLsbD_eq
    intro i hi
    rw [formatXkk, BitVec.getLsbD_extractLsb', BitVec.getLsbD_append, BitVec.getLsbD_append]
    simp [hi, show ¬ (8 + i < 8) by omega, show 8 + i - 8 = i by omega]
  rw [xOf, this, toFin_regBits]

/-! ### Formats `xy_sub` and `xyn` -/

@[simp] theorem nOf_formatXyn (c : BitVec 4) (x y : Reg) (n : BitVec 4) : nOf (formatXyn c x y n) = n :=
  BitVec.extractLsb'_append_eq_right

@[simp] theorem classOf_formatXyn (c : BitVec 4) (x y : Reg) (n : BitVec 4) : classOf (formatXyn c x y n) = c := by
  apply BitVec.eq_of_getLsbD_eq
  intro i hi
  rw [classOf, formatXyn, BitVec.getLsbD_extractLsb', BitVec.getLsbD_append, BitVec.getLsbD_append,
    BitVec.getLsbD_append]
  simp [hi, show ¬ (12 + i < 4) by omega, show ¬ (12 + i - 4 < 4) by omega, show ¬ (12 + i - 4 - 4 < 4) by omega,
    show 12 + i - 4 - 4 - 4 = i by omega]

@[simp] theorem xOf_formatXyn (c : BitVec 4) (x y : Reg) (n : BitVec 4) : xOf (formatXyn c x y n) = x := by
  have : (formatXyn c x y n).extractLsb' 8 4 = regBits x := by
    apply BitVec.eq_of_getLsbD_eq
    intro i hi
    rw [formatXyn, BitVec.getLsbD_extractLsb', BitVec.getLsbD_append, BitVec.getLsbD_append, BitVec.getLsbD_append]
    simp [hi, show ¬ (8 + i < 4) by omega, show ¬ (8 + i - 4 < 4) by omega, show 8 + i - 4 - 4 = i by omega]
  rw [xOf, this, toFin_regBits]

@[simp] theorem yOf_formatXyn (c : BitVec 4) (x y : Reg) (n : BitVec 4) : yOf (formatXyn c x y n) = y := by
  have : (formatXyn c x y n).extractLsb' 4 4 = regBits y := by
    apply BitVec.eq_of_getLsbD_eq
    intro i hi
    rw [formatXyn, BitVec.getLsbD_extractLsb', BitVec.getLsbD_append, BitVec.getLsbD_append]
    simp [hi, show ¬ (4 + i < 4) by omega, show 4 + i - 4 = i by omega]
  rw [yOf, this, toFin_regBits]

/-! ### A word is its fields -/

theorem word_eq_formatNnn (w : Word) : w = formatNnn (classOf w) (nnnOf w) := by
  apply BitVec.eq_of_getLsbD_eq
  intro i hi
  rw [formatNnn, BitVec.getLsbD_append, nnnOf, classOf, BitVec.getLsbD_extractLsb', BitVec.getLsbD_extractLsb']
  by_cases h : i < 12
  · simp [h]
  · simp [h, show i - 12 < 4 by omega, show 12 + (i - 12) = i by omega]

theorem nnnOf_eq_append (w : Word) : nnnOf w = regBits (xOf w) ++ kkOf w := by
  apply BitVec.eq_of_getLsbD_eq
  intro i hi
  rw [xOf, regBits_toFin, BitVec.getLsbD_append, nnnOf, kkOf, BitVec.getLsbD_extractLsb',
    BitVec.getLsbD_extractLsb', BitVec.getLsbD_extractLsb']
  by_cases h : i < 8
  · simp [h, hi]
  · simp [h, hi, show i - 8 < 4 by omega, show 8 + (i - 8) = i by omega]

theorem kkOf_eq_append (w : Word) : kkOf w = regBits (yOf w) ++ nOf w := by
  apply BitVec.eq_of_getLsbD_eq
  intro i hi
  rw [yOf, regBits_toFin, BitVec.getLsbD_append, kkOf, nOf, BitVec.getLsbD_extractLsb',
    BitVec.getLsbD_extractLsb', BitVec.getLsbD_extractLsb']
  by_cases h : i < 4
  · simp [h, hi]
  · simp [h, hi, show i - 4 < 4 by omega, show 4 + (i - 4) = i by omega]

theorem word_eq_formatXkk (w : Word) : w = formatXkk (classOf w) (xOf w) (kkOf w) := by
  rw [show formatXkk (classOf w) (xOf w) (kkOf w) = formatNnn (classOf w) (regBits (xOf w) ++ kkOf w) from
    BitVec.append_assoc, ← nnnOf_eq_append]
  exact word_eq_formatNnn w

theorem word_eq_formatXyn (w : Word) : w = formatXyn (classOf w) (xOf w) (yOf w) (nOf w) := by
  rw [show formatXyn (classOf w) (xOf w) (yOf w) (nOf w)
      = formatXkk (classOf w) (xOf w) (regBits (yOf w) ++ nOf w) from BitVec.append_assoc, ← kkOf_eq_append]
  exact word_eq_formatXkk w

/-! ### A word from the fields a decoder case has fixed -/

theorem formatNnn_of_class {w : Word} {c : BitVec 4} (h : classOf w = c) : formatNnn c (nnnOf w) = w :=
  h ▸ (word_eq_formatNnn w).symm

theorem formatXkk_of_class {w : Word} {c : BitVec 4} (h : classOf w = c) : formatXkk c (xOf w) (kkOf w) = w :=
  h ▸ (word_eq_formatXkk w).symm

theorem formatXkk_of_subcode {w : Word} {c : BitVec 4} {k : Byte} (h : classOf w = c) (hk : kkOf w = k) :
    formatXkk c (xOf w) k = w :=
  hk ▸ formatXkk_of_class h

theorem formatXyn_of_class {w : Word} {c : BitVec 4} (h : classOf w = c) :
    formatXyn c (xOf w) (yOf w) (nOf w) = w :=
  h ▸ (word_eq_formatXyn w).symm

theorem formatXyn_of_subcode {w : Word} {c n : BitVec 4} (h : classOf w = c) (hn : nOf w = n) :
    formatXyn c (xOf w) (yOf w) n = w :=
  hn ▸ formatXyn_of_class h

/-! ### The fields as numbers (R52) -/

theorem classOf_toNat (w : Word) : (classOf w).toNat = w.toNat / 4096 := by
  have := w.isLt
  simp only [classOf, BitVec.extractLsb'_toNat, Nat.shiftRight_eq_div_pow]
  omega

theorem nOf_toNat (w : Word) : (nOf w).toNat = w.toNat % 16 := by
  simp [nOf]

theorem kkOf_toNat (w : Word) : (kkOf w).toNat = w.toNat % 256 := by
  simp [kkOf]

theorem nnnOf_toNat (w : Word) : (nnnOf w).toNat = w.toNat % 4096 := by
  simp [nnnOf]

/-! ### The formats as numbers (R53) -/

theorem formatNnn_toNat (c : BitVec 4) (a : BitVec 12) : (formatNnn c a).toNat = c.toNat * 4096 + a.toNat := by
  have h := a.isLt
  rw [formatNnn, BitVec.toNat_append, ← Nat.shiftLeft_add_eq_or_of_lt h, Nat.shiftLeft_eq]

theorem formatXkk_toNat (c : BitVec 4) (x : Reg) (kk : Byte) :
    (formatXkk c x kk).toNat = c.toNat * 4096 + x.val * 256 + kk.toNat := by
  have h := kk.isLt
  have hx : (regBits x).toNat < 2 ^ 4 := (regBits x).isLt
  rw [formatXkk, BitVec.toNat_append, ← Nat.shiftLeft_add_eq_or_of_lt h, BitVec.toNat_append,
    ← Nat.shiftLeft_add_eq_or_of_lt hx, Nat.shiftLeft_eq, Nat.shiftLeft_eq]
  show (c.toNat * 2 ^ 4 + x.val) * 2 ^ 8 + kk.toNat = _
  omega

theorem formatXyn_toNat (c : BitVec 4) (x y : Reg) (n : BitVec 4) :
    (formatXyn c x y n).toNat = c.toNat * 4096 + x.val * 256 + y.val * 16 + n.toNat := by
  have h := n.isLt
  have hy : (regBits y).toNat < 2 ^ 4 := (regBits y).isLt
  rw [show formatXyn c x y n = formatXkk c x (regBits y ++ n) from BitVec.append_assoc, formatXkk_toNat,
    BitVec.toNat_append, ← Nat.shiftLeft_add_eq_or_of_lt h, Nat.shiftLeft_eq]
  show c.toNat * 4096 + x.val * 256 + (y.val * 2 ^ 4 + n.toNat) = _
  omega

/-! ### Bytes and words (R39) -/

theorem wordOfBytes_toNat (hi lo : Byte) : (wordOfBytes hi lo).toNat = hi.toNat * 256 + lo.toNat := by
  have h := lo.isLt
  rw [wordOfBytes, BitVec.toNat_append, ← Nat.shiftLeft_add_eq_or_of_lt h, Nat.shiftLeft_eq]

/-- The bytes of the word of two bytes are those bytes. -/
theorem bytesOfWord_wordOfBytes (hi lo : Byte) : bytesOfWord (wordOfBytes hi lo) = [hi, lo] := by
  have hh := hi.isLt
  have hl := lo.isLt
  simp only [bytesOfWord, List.cons.injEq, and_true]
  refine ⟨BitVec.eq_of_toNat_eq ?_, BitVec.eq_of_toNat_eq ?_⟩ <;>
    rw [BitVec.extractLsb'_toNat, wordOfBytes_toNat, Nat.shiftRight_eq_div_pow] <;> omega

/-- The word of the bytes of a word is that word. -/
theorem wordOfBytes_bytesOfWord (w : Word) : wordOfBytes (w.extractLsb' 8 8) (w.extractLsb' 0 8) = w := by
  have h := w.isLt
  refine BitVec.eq_of_toNat_eq ?_
  rw [wordOfBytes_toNat, BitVec.extractLsb'_toNat, BitVec.extractLsb'_toNat, Nat.shiftRight_eq_div_pow,
    Nat.shiftRight_eq_div_pow]
  omega

end Sys2Proof
end

