-- ==== Sys2Proof/Laws/Memory.lean ====
section
/-! SUPPORT. The laws of memory: a read after a write, that every operation keeps the canonical form, and that two
memories in that form that read alike are equal. -/

namespace Sys2Proof.Machine

/-! ### Finding a cell in a changed list -/

theorem findCell_insertCell (a b : Nat) (v : Byte) (cs : List Host.Cell) :
    findCell b (insertCell a v cs) = if b = a then some v else findCell b cs := by
  induction cs with
  | nil => simp [insertCell, findCell]
  | cons c cs ih =>
    obtain ⟨d, w⟩ := c
    simp only [insertCell]
    split
    · simp [findCell]
    · split
      · next h => subst h; by_cases hb : b = a <;> simp [findCell, hb]
      · next h1 h2 =>
        simp only [findCell, ih]
        by_cases hb : b = d
        · subst hb; rw [if_pos rfl, if_neg (Ne.symm h2), if_pos rfl]
        · rw [if_neg hb, if_neg hb]

theorem findCell_eraseCell (a b : Nat) (cs : List Host.Cell) :
    findCell b (eraseCell a cs) = if b = a then none else findCell b cs := by
  induction cs with
  | nil => simp [eraseCell, findCell]
  | cons c cs ih =>
    obtain ⟨d, w⟩ := c
    simp only [eraseCell] at ih ⊢
    by_cases hd : d = a
    · subst hd; by_cases hb : b = d <;> simp_all [findCell]
    · rw [List.filter_cons_of_pos (by simpa using hd)]
      simp only [findCell, ih]
      by_cases hb : b = d
      · subst hb; simp [hd]
      · simp [hb]

/-! ### Read after write (R36, R37) -/

theorem read_write (m : Memory) (a b : Nat) (v : Byte) :
    (m.write a v).read b = if b = a then v else m.read b := by
  unfold Memory.write
  split
  · next hv =>
    simp only [Memory.read, findCell_eraseCell]
    by_cases h : b = a
    · subst h; simp [hv]
    · simp [h]
  · simp only [Memory.read, findCell_insertCell]
    by_cases h : b = a <;> simp [h]

@[simp] theorem read_write_same (m : Memory) (a : Nat) (v : Byte) : (m.write a v).read a = v := by
  rw [read_write, if_pos rfl]

theorem read_write_other (m : Memory) {a b : Nat} (v : Byte) (h : b ≠ a) : (m.write a v).read b = m.read b := by
  rw [read_write, if_neg h]

@[simp] theorem read_writeBytes_nil (m : Memory) (a : Nat) : m.writeBytes a [] = m := rfl

/-- After bytes are stored from `a` upwards, the addresses of the range read them and every other address reads as
before. -/
theorem read_writeBytes (bs : List Byte) (m : Memory) (a b : Nat) :
    (m.writeBytes a bs).read b = if a ≤ b then bs.getD (b - a) (m.read b) else m.read b := by
  induction bs generalizing m a with
  | nil => simp
  | cons v bs ih =>
    rw [Memory.writeBytes, ih, read_write]
    by_cases hb : b = a
    · subst hb; simp
    · by_cases hle : a ≤ b
      · have : b - a = (b - (a + 1)) + 1 := by omega
        rw [if_pos (by omega), if_pos hle, if_neg hb, this]
        rfl
      · rw [if_neg (by omega), if_neg hle, if_neg hb]

theorem read_writeBytes_outside (bs : List Byte) (m : Memory) {a b : Nat} (h : b < a ∨ a + bs.length ≤ b) :
    (m.writeBytes a bs).read b = m.read b := by
  rw [read_writeBytes]
  split
  · rw [List.getD_eq_default _ _ (by omega)]
  · rfl

theorem read_writeBytes_inside (bs : List Byte) (m : Memory) (a : Nat) {k : Nat} (h : k < bs.length) :
    (m.writeBytes a bs).read (a + k) = bs[k] := by
  rw [read_writeBytes, if_pos (by omega), Nat.add_sub_cancel_left]
  simp [h]

/-! ### The canonical form -/

theorem mem_insertCell {c : Host.Cell} {a : Nat} {v : Byte} {cs : List Host.Cell} (h : c ∈ insertCell a v cs) :
    c = (a, v) ∨ c ∈ cs := by
  induction cs with
  | nil => simpa [insertCell] using h
  | cons d cs ih =>
    obtain ⟨b, w⟩ := d
    simp only [insertCell] at h
    split at h
    · simpa using h
    · split at h
      · rcases List.mem_cons.1 h with h | h
        · exact .inl h
        · exact .inr (List.mem_cons_of_mem _ h)
      · rcases List.mem_cons.1 h with h | h
        · exact .inr (h ▸ List.mem_cons_self)
        · exact (ih h).imp id (List.mem_cons_of_mem _)

theorem insertCell_rising (a : Nat) (v : Byte) {cs : List Host.Cell} (h : cs.Pairwise (fun c d => c.1 < d.1)) :
    (insertCell a v cs).Pairwise (fun c d => c.1 < d.1) := by
  induction cs with
  | nil => simp [insertCell]
  | cons d cs ih =>
    obtain ⟨b, w⟩ := d
    obtain ⟨hd, ht⟩ := List.pairwise_cons.1 h
    simp only [insertCell]
    split
    · next hab =>
      refine List.pairwise_cons.2 ⟨fun c hc => ?_, h⟩
      rcases List.mem_cons.1 hc with rfl | hc
      · exact hab
      · exact Nat.lt_trans hab (hd c hc)
    · split
      · next hab => subst hab; exact List.pairwise_cons.2 ⟨hd, ht⟩
      · next h1 h2 =>
        refine List.pairwise_cons.2 ⟨fun c hc => ?_, ih ht⟩
        rcases mem_insertCell hc with rfl | hc
        · show b < a
          omega
        · exact hd c hc

/-- The memory at reset is in canonical form. -/
theorem empty_wf : Memory.wf ⟨[]⟩ := by simp [Memory.wf]

/-- Storing a byte at an address of the RAM keeps the canonical form. -/
theorem write_wf {m : Memory} (h : m.wf) {a : Nat} (ha : a < Config.memSize) (v : Byte) : (m.write a v).wf := by
  obtain ⟨hp, hc⟩ := h
  unfold Memory.write
  split
  · exact ⟨hp.filter _, fun c hm => hc c (List.mem_of_mem_filter hm)⟩
  · next hv =>
    refine ⟨insertCell_rising a v hp, fun c hm => ?_⟩
    rcases mem_insertCell hm with rfl | hm
    · exact ⟨ha, hv⟩
    · exact hc c hm

/-- Storing bytes at addresses of the RAM keeps the canonical form. -/
theorem writeBytes_wf (bs : List Byte) {m : Memory} (h : m.wf) {a : Nat} (ha : a + bs.length ≤ Config.memSize) :
    (m.writeBytes a bs).wf := by
  induction bs generalizing m a with
  | nil => exact h
  | cons v bs ih =>
    rw [List.length_cons] at ha
    exact ih (write_wf h (by omega) v) (by omega)

/-! ### Equal memories are equal data -/

theorem findCell_eq_none {a : Nat} {cs : List Host.Cell} (h : ∀ c ∈ cs, a < c.1) : findCell a cs = none := by
  induction cs with
  | nil => rfl
  | cons c cs ih =>
    have hc := h c List.mem_cons_self
    rw [show c = (c.1, c.2) from rfl, findCell, if_neg (by omega)]
    exact ih (fun d hd => h d (List.mem_cons_of_mem _ hd))

theorem read_of_above {a : Nat} {m : Memory} (h : ∀ c ∈ m.cells, a < c.1) : m.read a = resetByte a := by
  rw [Memory.read, findCell_eq_none h]; rfl

/-- The byte at the first listed address of a canonical memory is the one listed, and is not what the address reads as
unlisted. -/
theorem read_head {c : Host.Cell} {cs : List Host.Cell} : Memory.read ⟨c :: cs⟩ c.1 = c.2 := by
  rw [Memory.read, show c = (c.1, c.2) from rfl, findCell, if_pos rfl]; rfl

theorem wf_tail {c : Host.Cell} {cs : List Host.Cell} (h : Memory.wf ⟨c :: cs⟩) : Memory.wf ⟨cs⟩ :=
  ⟨(List.pairwise_cons.1 h.1).2, fun d hd => h.2 d (List.mem_cons_of_mem _ hd)⟩

theorem read_tail {c : Host.Cell} {cs : List Host.Cell} (h : Memory.wf ⟨c :: cs⟩) (b : Nat) :
    Memory.read ⟨cs⟩ b = if b = c.1 then resetByte b else Memory.read ⟨c :: cs⟩ b := by
  by_cases hb : b = c.1
  · rw [if_pos hb, hb]; exact read_of_above (fun d hd => (List.pairwise_cons.1 h.1).1 d hd)
  · rw [if_neg hb, Memory.read, Memory.read]
    show _ = (findCell b ((c.1, c.2) :: cs)).getD _
    rw [findCell, if_neg hb]

/-- Two memories in canonical form that read alike at every address are equal. -/
theorem eq_of_reads_alike {m m' : Memory} (h : m.wf) (h' : m'.wf) (hr : ∀ a, m.read a = m'.read a) : m = m' := by
  obtain ⟨cs⟩ := m
  obtain ⟨ds⟩ := m'
  induction cs generalizing ds with
  | nil =>
    cases ds with
    | nil => rfl
    | cons d ds =>
      have := hr d.1
      rw [read_head, read_of_above (by simp)] at this
      exact absurd this.symm (h'.2 d List.mem_cons_self).2
  | cons c cs ih =>
    cases ds with
    | nil =>
      have := hr c.1
      rw [read_head, read_of_above (by simp)] at this
      exact absurd this (h.2 c List.mem_cons_self).2
    | cons d ds =>
      have hc := (List.pairwise_cons.1 h.1).1
      have hd := (List.pairwise_cons.1 h'.1).1
      have hcd : c.1 = d.1 := by
        rcases Nat.lt_trichotomy c.1 d.1 with hlt | heq | hgt
        · have := hr c.1
          rw [read_head, read_of_above (m := ⟨d :: ds⟩) (fun e he => ?_)] at this
          · exact absurd this (h.2 c List.mem_cons_self).2
          · rcases List.mem_cons.1 he with rfl | he
            · exact hlt
            · exact Nat.lt_trans hlt (hd e he)
        · exact heq
        · have := hr d.1
          rw [read_head, read_of_above (m := ⟨c :: cs⟩) (fun e he => ?_)] at this
          · exact absurd this.symm (h'.2 d List.mem_cons_self).2
          · rcases List.mem_cons.1 he with rfl | he
            · exact hgt
            · exact Nat.lt_trans hgt (hc e he)
      have hv : c.2 = d.2 := by
        have := hr c.1
        rwa [read_head, hcd, read_head] at this
      have ht : (⟨cs⟩ : Memory) = ⟨ds⟩ := ih (wf_tail h) ds (wf_tail h') (fun b => by
        rw [read_tail h, read_tail h', hcd, hr b])
      rw [show c = d from Prod.ext hcd hv, Memory.mk.inj ht]

end Sys2Proof.Machine
end

