-- ==== Sys2Proof/Laws/State.lean ====
section
/-! SUPPORT. What each shared update of the state leaves in each field, one lemma for each field, and the lemmas of
reading a register. -/

namespace Sys2Proof.Machine

/-! ### Reading a general register -/

@[simp] theorem reg_setReg_same (s : State) (x : Reg) (b : Byte) : (s.setReg x b).reg x = b := by
  simp [State.reg, State.setReg]

theorem reg_setReg (s : State) (x r : Reg) (b : Byte) :
    (s.setReg x b).reg r = if r = x then b else s.reg r := by
  simp only [State.reg, State.setReg, Fin.getElem_fin, Vector.getElem_set, Fin.ext_iff, eq_comm]

theorem reg_setReg_other (s : State) {x r : Reg} (b : Byte) (h : r ≠ x) : (s.setReg x b).reg r = s.reg r := by
  rw [reg_setReg, if_neg h]

theorem reg_setRegFlag (s : State) (x r : Reg) (b f : Byte) :
    (s.setRegFlag x b f).reg r = if r = regF then f else if r = x then b else s.reg r := by
  simp only [State.setRegFlag, reg_setReg]

@[simp] theorem reg_setRegFlag_flag (s : State) (x : Reg) (b f : Byte) : (s.setRegFlag x b f).reg regF = f := by
  simp [reg_setRegFlag]

/-- A register reads the same in states with the same register file. -/
theorem reg_of_v_eq {s t : State} (h : t.v = s.v) (r : Reg) : t.reg r = s.reg r := by
  simp only [State.reg, h]

/-! ### `State.setReg` -/

@[simp] theorem setReg_i (s : State) (x : Reg) (b : Byte) : (s.setReg x b).i = s.i := rfl
@[simp] theorem setReg_pc (s : State) (x : Reg) (b : Byte) : (s.setReg x b).pc = s.pc := rfl
@[simp] theorem setReg_sp (s : State) (x : Reg) (b : Byte) : (s.setReg x b).sp = s.sp := rfl
@[simp] theorem setReg_stack (s : State) (x : Reg) (b : Byte) : (s.setReg x b).stack = s.stack := rfl
@[simp] theorem setReg_dt (s : State) (x : Reg) (b : Byte) : (s.setReg x b).dt = s.dt := rfl
@[simp] theorem setReg_st (s : State) (x : Reg) (b : Byte) : (s.setReg x b).st = s.st := rfl
@[simp] theorem setReg_mem (s : State) (x : Reg) (b : Byte) : (s.setReg x b).mem = s.mem := rfl
@[simp] theorem setReg_fb (s : State) (x : Reg) (b : Byte) : (s.setReg x b).fb = s.fb := rfl
@[simp] theorem setReg_frameSeq (s : State) (x : Reg) (b : Byte) : (s.setReg x b).frameSeq = s.frameSeq := rfl
@[simp] theorem setReg_keys (s : State) (x : Reg) (b : Byte) : (s.setReg x b).keys = s.keys := rfl
@[simp] theorem setReg_run (s : State) (x : Reg) (b : Byte) : (s.setReg x b).run = s.run := rfl
@[simp] theorem setReg_waitX (s : State) (x : Reg) (b : Byte) : (s.setReg x b).waitX = s.waitX := rfl
@[simp] theorem setReg_prevKeys (s : State) (x : Reg) (b : Byte) : (s.setReg x b).prevKeys = s.prevKeys := rfl
@[simp] theorem setReg_faultKind (s : State) (x : Reg) (b : Byte) : (s.setReg x b).faultKind = s.faultKind := rfl
@[simp] theorem setReg_faultInfo (s : State) (x : Reg) (b : Byte) : (s.setReg x b).faultInfo = s.faultInfo := rfl
@[simp] theorem setReg_draws (s : State) (x : Reg) (b : Byte) : (s.setReg x b).draws = s.draws := rfl
@[simp] theorem setReg_schedule (s : State) (x : Reg) (b : Byte) : (s.setReg x b).schedule = s.schedule := rfl

/-! ### `State.setRegFlag` -/

@[simp] theorem setRegFlag_i (s : State) (x : Reg) (b f : Byte) : (s.setRegFlag x b f).i = s.i := rfl
@[simp] theorem setRegFlag_pc (s : State) (x : Reg) (b f : Byte) : (s.setRegFlag x b f).pc = s.pc := rfl
@[simp] theorem setRegFlag_sp (s : State) (x : Reg) (b f : Byte) : (s.setRegFlag x b f).sp = s.sp := rfl
@[simp] theorem setRegFlag_stack (s : State) (x : Reg) (b f : Byte) : (s.setRegFlag x b f).stack = s.stack := rfl
@[simp] theorem setRegFlag_dt (s : State) (x : Reg) (b f : Byte) : (s.setRegFlag x b f).dt = s.dt := rfl
@[simp] theorem setRegFlag_st (s : State) (x : Reg) (b f : Byte) : (s.setRegFlag x b f).st = s.st := rfl
@[simp] theorem setRegFlag_mem (s : State) (x : Reg) (b f : Byte) : (s.setRegFlag x b f).mem = s.mem := rfl
@[simp] theorem setRegFlag_fb (s : State) (x : Reg) (b f : Byte) : (s.setRegFlag x b f).fb = s.fb := rfl
@[simp] theorem setRegFlag_frameSeq (s : State) (x : Reg) (b f : Byte) : (s.setRegFlag x b f).frameSeq = s.frameSeq := rfl
@[simp] theorem setRegFlag_keys (s : State) (x : Reg) (b f : Byte) : (s.setRegFlag x b f).keys = s.keys := rfl
@[simp] theorem setRegFlag_run (s : State) (x : Reg) (b f : Byte) : (s.setRegFlag x b f).run = s.run := rfl
@[simp] theorem setRegFlag_waitX (s : State) (x : Reg) (b f : Byte) : (s.setRegFlag x b f).waitX = s.waitX := rfl
@[simp] theorem setRegFlag_prevKeys (s : State) (x : Reg) (b f : Byte) : (s.setRegFlag x b f).prevKeys = s.prevKeys := rfl
@[simp] theorem setRegFlag_faultKind (s : State) (x : Reg) (b f : Byte) : (s.setRegFlag x b f).faultKind = s.faultKind := rfl
@[simp] theorem setRegFlag_faultInfo (s : State) (x : Reg) (b f : Byte) : (s.setRegFlag x b f).faultInfo = s.faultInfo := rfl
@[simp] theorem setRegFlag_draws (s : State) (x : Reg) (b f : Byte) : (s.setRegFlag x b f).draws = s.draws := rfl
@[simp] theorem setRegFlag_schedule (s : State) (x : Reg) (b f : Byte) : (s.setRegFlag x b f).schedule = s.schedule := rfl

/-! ### `State.complete` -/

@[simp] theorem complete_v (s : State) (f : Flow) : (s.complete f).v = s.v := by cases f <;> rfl
@[simp] theorem complete_i (s : State) (f : Flow) : (s.complete f).i = s.i := by cases f <;> rfl
@[simp] theorem complete_sp (s : State) (f : Flow) : (s.complete f).sp = s.sp := by cases f <;> rfl
@[simp] theorem complete_stack (s : State) (f : Flow) : (s.complete f).stack = s.stack := by cases f <;> rfl
@[simp] theorem complete_dt (s : State) (f : Flow) : (s.complete f).dt = s.dt := by cases f <;> rfl
@[simp] theorem complete_st (s : State) (f : Flow) : (s.complete f).st = s.st := by cases f <;> rfl
@[simp] theorem complete_mem (s : State) (f : Flow) : (s.complete f).mem = s.mem := by cases f <;> rfl
@[simp] theorem complete_fb (s : State) (f : Flow) : (s.complete f).fb = s.fb := by cases f <;> rfl
@[simp] theorem complete_frameSeq (s : State) (f : Flow) : (s.complete f).frameSeq = s.frameSeq := by cases f <;> rfl
@[simp] theorem complete_keys (s : State) (f : Flow) : (s.complete f).keys = s.keys := by cases f <;> rfl
@[simp] theorem complete_waitX (s : State) (f : Flow) : (s.complete f).waitX = s.waitX := by cases f <;> rfl
@[simp] theorem complete_prevKeys (s : State) (f : Flow) : (s.complete f).prevKeys = s.prevKeys := by cases f <;> rfl
@[simp] theorem complete_faultKind (s : State) (f : Flow) : (s.complete f).faultKind = s.faultKind := by cases f <;> rfl
@[simp] theorem complete_faultInfo (s : State) (f : Flow) : (s.complete f).faultInfo = s.faultInfo := by cases f <;> rfl
@[simp] theorem complete_draws (s : State) (f : Flow) : (s.complete f).draws = s.draws := by cases f <;> rfl
@[simp] theorem complete_schedule (s : State) (f : Flow) : (s.complete f).schedule = s.schedule := by cases f <;> rfl
@[simp] theorem complete_continue_pc (s : State) : (s.complete .continue).pc = s.pc + 2 := rfl
@[simp] theorem complete_jump_pc (s : State) (a : Word) : (s.complete (.jump a)).pc = a := rfl
@[simp] theorem complete_skip_pc (s : State) : (s.complete .skip).pc = s.pc + 4 := rfl
@[simp] theorem complete_wait_pc (s : State) : (s.complete .waitForKey).pc = s.pc := rfl
@[simp] theorem complete_continue_run (s : State) : (s.complete .continue).run = s.run := rfl
@[simp] theorem complete_jump_run (s : State) (a : Word) : (s.complete (.jump a)).run = s.run := rfl
@[simp] theorem complete_skip_run (s : State) : (s.complete .skip).run = s.run := rfl
@[simp] theorem complete_wait_run (s : State) : (s.complete .waitForKey).run = .waitKey := rfl
@[simp] theorem complete_skipIf_run (s : State) (c : Bool) : (s.complete (skipIf c)).run = s.run := by
  cases c <;> rfl
@[simp] theorem complete_skipIf_pc (s : State) (c : Bool) :
    (s.complete (skipIf c)).pc = if c then s.pc + 4 else s.pc + 2 := by
  cases c <;> rfl
@[simp] theorem complete_reg (s : State) (f : Flow) (r : Reg) : (s.complete f).reg r = s.reg r :=
  reg_of_v_eq (complete_v s f) r

/-! ### `State.enterFault` -/

@[simp] theorem enterFault_v (s : State) (k : FaultKind) (w : Word) : (s.enterFault k w).v = s.v := rfl
@[simp] theorem enterFault_i (s : State) (k : FaultKind) (w : Word) : (s.enterFault k w).i = s.i := rfl
@[simp] theorem enterFault_pc (s : State) (k : FaultKind) (w : Word) : (s.enterFault k w).pc = s.pc := rfl
@[simp] theorem enterFault_sp (s : State) (k : FaultKind) (w : Word) : (s.enterFault k w).sp = s.sp := rfl
@[simp] theorem enterFault_stack (s : State) (k : FaultKind) (w : Word) : (s.enterFault k w).stack = s.stack := rfl
@[simp] theorem enterFault_dt (s : State) (k : FaultKind) (w : Word) : (s.enterFault k w).dt = s.dt := rfl
@[simp] theorem enterFault_st (s : State) (k : FaultKind) (w : Word) : (s.enterFault k w).st = s.st := rfl
@[simp] theorem enterFault_mem (s : State) (k : FaultKind) (w : Word) : (s.enterFault k w).mem = s.mem := rfl
@[simp] theorem enterFault_fb (s : State) (k : FaultKind) (w : Word) : (s.enterFault k w).fb = s.fb := rfl
@[simp] theorem enterFault_frameSeq (s : State) (k : FaultKind) (w : Word) : (s.enterFault k w).frameSeq = s.frameSeq := rfl
@[simp] theorem enterFault_keys (s : State) (k : FaultKind) (w : Word) : (s.enterFault k w).keys = s.keys := rfl
@[simp] theorem enterFault_waitX (s : State) (k : FaultKind) (w : Word) : (s.enterFault k w).waitX = s.waitX := rfl
@[simp] theorem enterFault_prevKeys (s : State) (k : FaultKind) (w : Word) : (s.enterFault k w).prevKeys = s.prevKeys := rfl
@[simp] theorem enterFault_draws (s : State) (k : FaultKind) (w : Word) : (s.enterFault k w).draws = s.draws := rfl
@[simp] theorem enterFault_schedule (s : State) (k : FaultKind) (w : Word) : (s.enterFault k w).schedule = s.schedule := rfl
@[simp] theorem enterFault_run (s : State) (k : FaultKind) (w : Word) : (s.enterFault k w).run = .halted := rfl
@[simp] theorem enterFault_faultKind (s : State) (k : FaultKind) (w : Word) : (s.enterFault k w).faultKind = k := rfl
@[simp] theorem enterFault_faultInfo (s : State) (k : FaultKind) (w : Word) : (s.enterFault k w).faultInfo = w := rfl
@[simp] theorem enterFault_reg (s : State) (k : FaultKind) (w : Word) (r : Reg) : (s.enterFault k w).reg r = s.reg r :=
  rfl

/-! ### `State.drawn` -/

@[simp] theorem drawn_i (s : State) (c : Canvas) : (s.drawn c).i = s.i := rfl
@[simp] theorem drawn_pc (s : State) (c : Canvas) : (s.drawn c).pc = s.pc := rfl
@[simp] theorem drawn_sp (s : State) (c : Canvas) : (s.drawn c).sp = s.sp := rfl
@[simp] theorem drawn_stack (s : State) (c : Canvas) : (s.drawn c).stack = s.stack := rfl
@[simp] theorem drawn_dt (s : State) (c : Canvas) : (s.drawn c).dt = s.dt := rfl
@[simp] theorem drawn_st (s : State) (c : Canvas) : (s.drawn c).st = s.st := rfl
@[simp] theorem drawn_mem (s : State) (c : Canvas) : (s.drawn c).mem = s.mem := rfl
@[simp] theorem drawn_keys (s : State) (c : Canvas) : (s.drawn c).keys = s.keys := rfl
@[simp] theorem drawn_run (s : State) (c : Canvas) : (s.drawn c).run = s.run := rfl
@[simp] theorem drawn_waitX (s : State) (c : Canvas) : (s.drawn c).waitX = s.waitX := rfl
@[simp] theorem drawn_prevKeys (s : State) (c : Canvas) : (s.drawn c).prevKeys = s.prevKeys := rfl
@[simp] theorem drawn_faultKind (s : State) (c : Canvas) : (s.drawn c).faultKind = s.faultKind := rfl
@[simp] theorem drawn_faultInfo (s : State) (c : Canvas) : (s.drawn c).faultInfo = s.faultInfo := rfl
@[simp] theorem drawn_draws (s : State) (c : Canvas) : (s.drawn c).draws = s.draws := rfl
@[simp] theorem drawn_schedule (s : State) (c : Canvas) : (s.drawn c).schedule = s.schedule := rfl
@[simp] theorem drawn_fb (s : State) (c : Canvas) : (s.drawn c).fb = c.1 := rfl
@[simp] theorem drawn_frameSeq (s : State) (c : Canvas) : (s.drawn c).frameSeq = s.frameSeq + 1 := rfl
theorem drawn_reg (s : State) (c : Canvas) (r : Reg) : (s.drawn c).reg r = if r = regF then flag c.2 else s.reg r :=
  reg_setReg _ _ _ _

/-! ### `State.tick` -/

@[simp] theorem tick_v (s : State) : (s.tick).v = s.v := by unfold State.tick; split <;> rfl
@[simp] theorem tick_i (s : State) : (s.tick).i = s.i := by unfold State.tick; split <;> rfl
@[simp] theorem tick_pc (s : State) : (s.tick).pc = s.pc := by unfold State.tick; split <;> rfl
@[simp] theorem tick_sp (s : State) : (s.tick).sp = s.sp := by unfold State.tick; split <;> rfl
@[simp] theorem tick_stack (s : State) : (s.tick).stack = s.stack := by unfold State.tick; split <;> rfl
@[simp] theorem tick_mem (s : State) : (s.tick).mem = s.mem := by unfold State.tick; split <;> rfl
@[simp] theorem tick_fb (s : State) : (s.tick).fb = s.fb := by unfold State.tick; split <;> rfl
@[simp] theorem tick_frameSeq (s : State) : (s.tick).frameSeq = s.frameSeq := by unfold State.tick; split <;> rfl
@[simp] theorem tick_keys (s : State) : (s.tick).keys = s.keys := by unfold State.tick; split <;> rfl
@[simp] theorem tick_run (s : State) : (s.tick).run = s.run := by unfold State.tick; split <;> rfl
@[simp] theorem tick_waitX (s : State) : (s.tick).waitX = s.waitX := by unfold State.tick; split <;> rfl
@[simp] theorem tick_prevKeys (s : State) : (s.tick).prevKeys = s.prevKeys := by unfold State.tick; split <;> rfl
@[simp] theorem tick_faultKind (s : State) : (s.tick).faultKind = s.faultKind := by unfold State.tick; split <;> rfl
@[simp] theorem tick_faultInfo (s : State) : (s.tick).faultInfo = s.faultInfo := by unfold State.tick; split <;> rfl
@[simp] theorem tick_draws (s : State) : (s.tick).draws = s.draws := by unfold State.tick; split <;> rfl
@[simp] theorem tick_schedule (s : State) : (s.tick).schedule = s.schedule := by unfold State.tick; split <;> rfl

/-! ### `State.cancel` -/

@[simp] theorem cancel_v (s : State) : (s.cancel).v = s.v := by unfold State.cancel; split <;> rfl
@[simp] theorem cancel_i (s : State) : (s.cancel).i = s.i := by unfold State.cancel; split <;> rfl
@[simp] theorem cancel_pc (s : State) : (s.cancel).pc = s.pc := by unfold State.cancel; split <;> rfl
@[simp] theorem cancel_sp (s : State) : (s.cancel).sp = s.sp := by unfold State.cancel; split <;> rfl
@[simp] theorem cancel_stack (s : State) : (s.cancel).stack = s.stack := by unfold State.cancel; split <;> rfl
@[simp] theorem cancel_dt (s : State) : (s.cancel).dt = s.dt := by unfold State.cancel; split <;> rfl
@[simp] theorem cancel_st (s : State) : (s.cancel).st = s.st := by unfold State.cancel; split <;> rfl
@[simp] theorem cancel_mem (s : State) : (s.cancel).mem = s.mem := by unfold State.cancel; split <;> rfl
@[simp] theorem cancel_fb (s : State) : (s.cancel).fb = s.fb := by unfold State.cancel; split <;> rfl
@[simp] theorem cancel_frameSeq (s : State) : (s.cancel).frameSeq = s.frameSeq := by unfold State.cancel; split <;> rfl
@[simp] theorem cancel_keys (s : State) : (s.cancel).keys = s.keys := by unfold State.cancel; split <;> rfl
@[simp] theorem cancel_waitX (s : State) : (s.cancel).waitX = s.waitX := by unfold State.cancel; split <;> rfl
@[simp] theorem cancel_prevKeys (s : State) : (s.cancel).prevKeys = s.prevKeys := by unfold State.cancel; split <;> rfl
@[simp] theorem cancel_faultKind (s : State) : (s.cancel).faultKind = s.faultKind := by unfold State.cancel; split <;> rfl
@[simp] theorem cancel_faultInfo (s : State) : (s.cancel).faultInfo = s.faultInfo := by unfold State.cancel; split <;> rfl
@[simp] theorem cancel_draws (s : State) : (s.cancel).draws = s.draws := by unfold State.cancel; split <;> rfl
@[simp] theorem cancel_schedule (s : State) : (s.cancel).schedule = s.schedule := by unfold State.cancel; split <;> rfl

/-! ### `State.setPressed` -/

@[simp] theorem setPressed_v (s : State) (k : Fin 16) (p : Bool) : (s.setPressed k p).v = s.v := rfl
@[simp] theorem setPressed_i (s : State) (k : Fin 16) (p : Bool) : (s.setPressed k p).i = s.i := rfl
@[simp] theorem setPressed_pc (s : State) (k : Fin 16) (p : Bool) : (s.setPressed k p).pc = s.pc := rfl
@[simp] theorem setPressed_sp (s : State) (k : Fin 16) (p : Bool) : (s.setPressed k p).sp = s.sp := rfl
@[simp] theorem setPressed_stack (s : State) (k : Fin 16) (p : Bool) : (s.setPressed k p).stack = s.stack := rfl
@[simp] theorem setPressed_dt (s : State) (k : Fin 16) (p : Bool) : (s.setPressed k p).dt = s.dt := rfl
@[simp] theorem setPressed_st (s : State) (k : Fin 16) (p : Bool) : (s.setPressed k p).st = s.st := rfl
@[simp] theorem setPressed_mem (s : State) (k : Fin 16) (p : Bool) : (s.setPressed k p).mem = s.mem := rfl
@[simp] theorem setPressed_fb (s : State) (k : Fin 16) (p : Bool) : (s.setPressed k p).fb = s.fb := rfl
@[simp] theorem setPressed_frameSeq (s : State) (k : Fin 16) (p : Bool) : (s.setPressed k p).frameSeq = s.frameSeq := rfl
@[simp] theorem setPressed_run (s : State) (k : Fin 16) (p : Bool) : (s.setPressed k p).run = s.run := rfl
@[simp] theorem setPressed_waitX (s : State) (k : Fin 16) (p : Bool) : (s.setPressed k p).waitX = s.waitX := rfl
@[simp] theorem setPressed_prevKeys (s : State) (k : Fin 16) (p : Bool) : (s.setPressed k p).prevKeys = s.prevKeys := rfl
@[simp] theorem setPressed_faultKind (s : State) (k : Fin 16) (p : Bool) : (s.setPressed k p).faultKind = s.faultKind := rfl
@[simp] theorem setPressed_faultInfo (s : State) (k : Fin 16) (p : Bool) : (s.setPressed k p).faultInfo = s.faultInfo := rfl
@[simp] theorem setPressed_draws (s : State) (k : Fin 16) (p : Bool) : (s.setPressed k p).draws = s.draws := rfl
@[simp] theorem setPressed_schedule (s : State) (k : Fin 16) (p : Bool) : (s.setPressed k p).schedule = s.schedule := rfl

/-! ### `State.waitSample` -/

@[simp] theorem waitSample_i (s : State) : (s.waitSample).i = s.i := by unfold State.waitSample; split <;> rfl
@[simp] theorem waitSample_sp (s : State) : (s.waitSample).sp = s.sp := by unfold State.waitSample; split <;> rfl
@[simp] theorem waitSample_stack (s : State) : (s.waitSample).stack = s.stack := by unfold State.waitSample; split <;> rfl
@[simp] theorem waitSample_dt (s : State) : (s.waitSample).dt = s.dt := by unfold State.waitSample; split <;> rfl
@[simp] theorem waitSample_st (s : State) : (s.waitSample).st = s.st := by unfold State.waitSample; split <;> rfl
@[simp] theorem waitSample_mem (s : State) : (s.waitSample).mem = s.mem := by unfold State.waitSample; split <;> rfl
@[simp] theorem waitSample_fb (s : State) : (s.waitSample).fb = s.fb := by unfold State.waitSample; split <;> rfl
@[simp] theorem waitSample_frameSeq (s : State) : (s.waitSample).frameSeq = s.frameSeq := by unfold State.waitSample; split <;> rfl
@[simp] theorem waitSample_keys (s : State) : (s.waitSample).keys = s.keys := by unfold State.waitSample; split <;> rfl
@[simp] theorem waitSample_waitX (s : State) : (s.waitSample).waitX = s.waitX := by unfold State.waitSample; split <;> rfl
@[simp] theorem waitSample_faultKind (s : State) : (s.waitSample).faultKind = s.faultKind := by unfold State.waitSample; split <;> rfl
@[simp] theorem waitSample_faultInfo (s : State) : (s.waitSample).faultInfo = s.faultInfo := by unfold State.waitSample; split <;> rfl
@[simp] theorem waitSample_draws (s : State) : (s.waitSample).draws = s.draws := by unfold State.waitSample; split <;> rfl
@[simp] theorem waitSample_schedule (s : State) : (s.waitSample).schedule = s.schedule := by unfold State.waitSample; split <;> rfl

end Sys2Proof.Machine
end

