-- ==== Sys2Proof/Laws/Ops.lean ====
section
/-! SUPPORT. One lemma for each shared operation that says what it can do: ending an instruction, the check of a range
of addresses, the checked store, the block load, and the fetch. -/

namespace Sys2Proof.Machine

/-! ### Outcomes -/

@[simp] theorem finish_eq (s : State) (f : Flow) : finish s f = .next (s.complete f) := rfl

@[simp] theorem raise_eq (s : State) (k : FaultKind) (w : Word) : raise s k w = .next (s.enterFault k w) := rfl

@[simp] theorem answers_next (t : State) (P : State → Prop) : Answers (.next t) P ↔ P t := by
  simp [Answers]

theorem writeReg_eq (s : State) (x : Reg) (b : Byte) : writeReg s x b = .next ((s.setReg x b).complete .continue) := rfl

theorem writeRegFlag_eq (s : State) (x : Reg) (b f : Byte) :
    writeRegFlag s x b f = .next ((s.setRegFlag x b f).complete .continue) := rfl

theorem writeIndex_eq (s : State) (a : Word) : writeIndex s a = .next { s with i := a, pc := s.pc + 2 } := rfl

/-! ### The lowest failing address (R38) -/

theorem lowestFailing_eq_none {ok : Nat → Bool} {a k : Nat} :
    lowestFailing ok a k = none ↔ ∀ b, a ≤ b → b < a + k → ok b = true := by
  induction k generalizing a with
  | zero => simp only [lowestFailing, true_iff]; intro b h1 h2; omega
  | succ k ih =>
    rw [lowestFailing]
    split
    · next h =>
      rw [ih]
      constructor
      · intro hb b h1 h2
        rcases Nat.eq_or_lt_of_le h1 with rfl | h1
        · exact h
        · exact hb b (by omega) (by omega)
      · intro hb b h1 h2
        exact hb b (by omega) (by omega)
    · next h =>
      simp only [reduceCtorEq, false_iff, not_forall]
      exact ⟨a, by omega, by omega, h⟩

theorem lowestFailing_eq_some {ok : Nat → Bool} {a k b : Nat} :
    lowestFailing ok a k = some b ↔ IsLowest (fun c => ok c = false) a k b := by
  induction k generalizing a with
  | zero => simp only [lowestFailing, IsLowest, reduceCtorEq, false_iff]; omega
  | succ k ih =>
    rw [lowestFailing]
    split
    · next h =>
      rw [ih]
      constructor
      · rintro ⟨h1, h2, h3, h4⟩
        refine ⟨by omega, by omega, h3, fun c hc1 hc2 => ?_⟩
        rcases Nat.eq_or_lt_of_le hc1 with rfl | hc1
        · simp [h]
        · exact h4 c (by omega) hc2
      · rintro ⟨h1, h2, h3, h4⟩
        have hab : a ≠ b := by rintro rfl; simp [h] at h3
        exact ⟨by omega, by omega, h3, fun c hc1 hc2 => h4 c (by omega) hc2⟩
    · next h =>
      simp only [Option.some.injEq]
      constructor
      · rintro rfl
        exact ⟨by omega, by omega, by simpa using h, fun c hc1 hc2 => by omega⟩
      · rintro ⟨h1, h2, h3, h4⟩
        rcases Nat.eq_or_lt_of_le h1 with h1 | h1
        · exact h1
        · exact absurd (by simpa using h) (h4 a (Nat.le_refl a) h1)

theorem readable_iff {a : Nat} : readable a = true ↔ a ≤ 0xFFF := by
  simp only [readable, Config.memSize, decide_eq_true_eq]; omega

theorem writable_iff {a : Nat} : writable a = true ↔ 0x200 ≤ a ∧ a ≤ 0xFFF := by
  simp only [writable, Config.reservedSize, Config.memSize, decide_eq_true_eq]; omega

/-- A range whose every address passes its check has its effect. -/
theorem checkedRange_ok {ok : Nat → Bool} {a k : Nat} (s : State) (e : Host.Outcome State Fault Refusal)
    (h : ∀ b, a ≤ b → b < a + k → ok b = true) : checkedRange s ok a k e = e := by
  rw [checkedRange, lowestFailing_eq_none.2 h]

/-- A range with an address that fails its check faults on the lowest one. -/
theorem checkedRange_fault {ok : Nat → Bool} {a k b : Nat} (s : State) (e : Host.Outcome State Fault Refusal)
    (h : IsLowest (fun c => ok c = false) a k b) :
    checkedRange s ok a k e = .next (s.enterFault .invalidAddress (BitVec.ofNat 16 b)) := by
  rw [checkedRange, lowestFailing_eq_some.2 h]; rfl

/-- A checked range either has its effect, and every address passes, or faults on its lowest failing address. -/
theorem checkedRange_cases (s : State) (ok : Nat → Bool) (a k : Nat) (e : Host.Outcome State Fault Refusal) :
    (checkedRange s ok a k e = e ∧ ∀ b, a ≤ b → b < a + k → ok b = true) ∨
    ∃ b, IsLowest (fun c => ok c = false) a k b ∧
      checkedRange s ok a k e = .next (s.enterFault .invalidAddress (BitVec.ofNat 16 b)) := by
  cases h : lowestFailing ok a k with
  | none => exact .inl ⟨by rw [checkedRange, h], lowestFailing_eq_none.1 h⟩
  | some b => exact .inr ⟨b, lowestFailing_eq_some.1 h, checkedRange_fault s e (lowestFailing_eq_some.1 h)⟩

/-! ### The checked store (R97, R98) -/

/-- A checked store either stores all its bytes, every address being one that can be written, or faults on the lowest
address that cannot. -/
theorem storeAtI_cases (s : State) (bs : List Byte) :
    (storeAtI s bs = .next { s with mem := s.mem.writeBytes s.base bs, pc := s.pc + 2 } ∧
      ∀ b, s.base ≤ b → b < s.base + bs.length → 0x200 ≤ b ∧ b ≤ 0xFFF) ∨
    ∃ b, IsLowest (fun c => writable c = false) s.base bs.length b ∧
      storeAtI s bs = .next (s.enterFault .invalidAddress (BitVec.ofNat 16 b)) := by
  rcases checkedRange_cases s writable s.base bs.length
    (finish { s with mem := s.mem.writeBytes s.base bs } .continue) with ⟨h, hb⟩ | h
  · exact .inl ⟨h, fun b h1 h2 => writable_iff.1 (hb b h1 h2)⟩
  · exact .inr h

/-! ### The block of registers `V0..Vx` (R98, R99) -/

theorem mem_regsUpTo {x r : Reg} : r ∈ regsUpTo x ↔ r ≤ x := by
  revert x r; decide +kernel

@[simp] theorem length_regsUpTo (x : Reg) : (regsUpTo x).length = x.val + 1 := by
  revert x; decide

theorem getElem_regsUpTo {x r : Reg} (h : r.val < (regsUpTo x).length) : (regsUpTo x)[r.val] = r := by
  simp [regsUpTo]

theorem loadRegs_cons (s : State) (r : Reg) (rs : List Reg) :
    loadRegs s (r :: rs) = rs.foldl (fun t q => t.setReg q (s.mem.read (s.base + q.val)))
      (s.setReg r (s.mem.read (s.base + r.val))) := rfl

/-- A fold of register writes changes nothing but the registers. -/
theorem foldl_setReg_frame (g : Reg → Byte) (rs : List Reg) (t : State) :
    rs.foldl (fun t q => t.setReg q (g q)) t = { t with v := (rs.foldl (fun t q => t.setReg q (g q)) t).v } := by
  induction rs generalizing t with
  | nil => rfl
  | cons r rs ih => rw [List.foldl_cons, ih]; rfl

theorem reg_foldl_setReg (g : Reg → Byte) (rs : List Reg) (t : State) (q : Reg) :
    (rs.foldl (fun t q => t.setReg q (g q)) t).reg q = if q ∈ rs then g q else t.reg q := by
  induction rs generalizing t with
  | nil => simp
  | cons r rs ih =>
    rw [List.foldl_cons, ih, reg_setReg]
    by_cases h : q ∈ rs <;> by_cases hq : q = r <;> simp_all

/-- A block load changes nothing but the registers. -/
theorem loadRegs_frame (s : State) (rs : List Reg) : loadRegs s rs = { s with v := (loadRegs s rs).v } :=
  foldl_setReg_frame (fun q => s.mem.read (s.base + q.val)) rs s

/-- A block load gives each register of the list its byte, and leaves every other register. -/
theorem reg_loadRegs (s : State) (rs : List Reg) (q : Reg) :
    (loadRegs s rs).reg q = if q ∈ rs then s.mem.read (s.base + q.val) else s.reg q :=
  reg_foldl_setReg (fun q => s.mem.read (s.base + q.val)) rs s q

/-- The end of a block load: the registers, and `PC` past the instruction. -/
theorem finish_loadRegs (s : State) (rs : List Reg) :
    finish (loadRegs s rs) .continue = .next { s with v := (loadRegs s rs).v, pc := s.pc + 2 } := by
  rw [finish_eq]
  conv_lhs => rw [loadRegs_frame]
  rfl

/-! ### Fetch (R64) -/

theorem fetchable_iff {a : Word} : fetchable a = true ↔ a.toNat % 2 = 0 ∧ a.toNat ≤ 0xFFE := by
  simp [fetchable, Config.pcMax]

/-- The word at `PC` depends on nothing but `PC` and memory. -/
theorem fetchWord_congr {s t : State} (hp : t.pc = s.pc) (hm : ∀ a, t.mem.read a = s.mem.read a) :
    t.fetchWord = s.fetchWord := by
  simp only [State.fetchWord, hp, hm]

end Sys2Proof.Machine
end

