-- ==== Sys2Proof/Laws/Display.lean ====
section
/-! SUPPORT. The framebuffer: a pixel after one is toggled, and what a whole sprite draw does to each pixel and to the
collision (R101). A draw is a fold of toggles over the positions the sprite covers, none of which comes twice. -/

namespace Sys2Proof.Machine

@[simp] theorem pixel_blankScreen (px : Fin 64) (py : Fin 32) : pixel blankScreen px py = false := by
  simp [pixel, blankScreen]

theorem pixel_togglePixel (fb : Framebuffer) (x px : Fin 64) (y py : Fin 32) :
    pixel (togglePixel fb x y) px py = (pixel fb px py ^^ decide ((px, py) = (x, y))) := by
  simp only [pixel, togglePixel, Fin.getElem_fin, Vector.getElem_set, Prod.mk.injEq]
  by_cases hy : y = py
  · subst hy
    simp [Fin.val_inj, eq_comm]
  · have h1 : ¬ (y.val = py.val) := fun h => hy (Fin.ext h)
    have h2 : py ≠ y := fun h => hy h.symm
    simp [h1, h2]

/-! ### A fold of toggles -/

/-- Toggling the pixel at a position, and noting whether it was set. -/
def toggleAt (c : Canvas) (p : Fin 64 × Fin 32) : Canvas := (togglePixel c.1 p.1 p.2, c.2 || pixel c.1 p.1 p.2)

/-- Toggles at positions that are all different flip exactly the pixels at those positions, and note a collision
exactly when one of those pixels was set at the start. -/
theorem foldl_toggleAt (ps : List (Fin 64 × Fin 32)) (c : Canvas) (h : ps.Nodup) :
    (∀ px py, pixel (ps.foldl toggleAt c).1 px py = (pixel c.1 px py ^^ decide ((px, py) ∈ ps))) ∧
      ((ps.foldl toggleAt c).2 = true ↔ c.2 = true ∨ ∃ p ∈ ps, pixel c.1 p.1 p.2 = true) := by
  induction ps generalizing c with
  | nil => simp
  | cons q ps ih =>
    obtain ⟨hq, hps⟩ := List.nodup_cons.1 h
    obtain ⟨h1, h2⟩ := ih (toggleAt c q) hps
    refine ⟨fun px py => ?_, ?_⟩
    · rw [List.foldl_cons, h1, toggleAt, pixel_togglePixel, Bool.xor_assoc]
      by_cases hp : (px, py) = q
      · simp [hp, hq]
      · simp [hp]
    · have hsame : ∀ p ∈ ps, pixel (toggleAt c q).1 p.1 p.2 = pixel c.1 p.1 p.2 := fun p hp => by
        have hpq : ¬ p = q := fun h => hq (h ▸ hp)
        simp [toggleAt, pixel_togglePixel, hpq]
      rw [List.foldl_cons, h2]
      simp only [toggleAt, Bool.or_eq_true, List.mem_cons, exists_eq_or_imp, or_assoc]
      exact or_congr_right (or_congr_right ⟨fun ⟨p, hp, hs⟩ => ⟨p, hp, hsame p hp ▸ hs⟩,
        fun ⟨p, hp, hs⟩ => ⟨p, hp, (hsame p hp).symm ▸ hs⟩⟩)

/-! ### The positions of a sprite -/

/-- The screen positions of the set bits of one row. -/
def rowPositions (x0 y0 r : Nat) (b : Byte) : List (Fin 64 × Fin 32) :=
  ((List.range 8).filter (fun k => b.getLsbD (7 - k))).map (fun k => (screenColumn x0 k, screenRow y0 r))

/-- The screen positions of the set bits of a sprite. -/
def spritePositions (m : Memory) (a x0 y0 n : Nat) : List (Fin 64 × Fin 32) :=
  (List.range n).flatMap (fun r => rowPositions x0 y0 r (m.read (a + r)))

theorem drawRow_eq (x0 y0 r : Nat) (c : Canvas) (b : Byte) :
    drawRow x0 y0 c r b = (rowPositions x0 y0 r b).foldl toggleAt c := by
  rw [drawRow, rowPositions, List.foldl_map, List.foldl_filter]
  rfl

theorem drawSprite_eq (m : Memory) (a x0 y0 n : Nat) (fb : Framebuffer) :
    drawSprite m a x0 y0 n fb = (spritePositions m a x0 y0 n).foldl toggleAt (fb, false) := by
  rw [drawSprite, spritePositions, List.foldl_flatMap]
  simp only [drawRow_eq]

theorem screenColumn_inj {x0 k k' : Nat} (hk : k < 64) (hk' : k' < 64) (h : screenColumn x0 k = screenColumn x0 k') :
    k = k' := by
  have : (x0 + k) % 64 = (x0 + k') % 64 := congrArg Fin.val h
  omega

theorem screenRow_inj {y0 r r' : Nat} (hr : r < 32) (hr' : r' < 32) (h : screenRow y0 r = screenRow y0 r') :
    r = r' := by
  have : (y0 + r) % 32 = (y0 + r') % 32 := congrArg Fin.val h
  omega

/-- "Within one draw no pixel is visited twice" (R101). -/
theorem spritePositions_nodup (m : Memory) (a x0 y0 : Nat) {n : Nat} (hn : n < 32) :
    (spritePositions m a x0 y0 n).Nodup := by
  refine List.nodup_flatMap.2 ⟨fun r _ => ?_, ?_⟩
  · refine (List.nodup_range.filter _).map_on ?_
    intro k hk k' hk' h
    have h1 := List.mem_range.1 (List.mem_of_mem_filter hk)
    have h2 := List.mem_range.1 (List.mem_of_mem_filter hk')
    exact screenColumn_inj (by omega) (by omega) (Prod.mk.inj h).1
  · refine List.nodup_range.imp_of_mem ?_
    intro r r' hr hr' hne p hp hp'
    obtain ⟨k, -, rfl⟩ := List.mem_map.1 hp
    obtain ⟨k', -, h⟩ := List.mem_map.1 hp'
    have h1 := List.mem_range.1 hr
    have h2 := List.mem_range.1 hr'
    exact hne (screenRow_inj (by omega) (by omega) (Prod.mk.inj h).2.symm)

theorem mem_spritePositions (s : State) (x y : Reg) (n : Nat) (px : Fin 64) (py : Fin 32) :
    (px, py) ∈ spritePositions s.mem s.base (s.reg x).toNat (s.reg y).toNat n ↔ SpriteCovers s x y n px py := by
  simp only [spritePositions, rowPositions, List.mem_flatMap, List.mem_map, List.mem_filter, List.mem_range,
    SpriteCovers, Prod.mk.injEq, Fin.ext_iff, screenColumn, screenRow, State.base]
  constructor
  · rintro ⟨r, hr, k, ⟨hk, hb⟩, hx, hy⟩
    exact ⟨r, k, hr, hk, hb, hx, hy⟩
  · rintro ⟨r, k, hr, hk, hb, hx, hy⟩
    exact ⟨r, hr, k, ⟨hk, hb⟩, hx, hy⟩

end Sys2Proof.Machine
end

