-- ==== Sys2Proof/Laws/Exec.lean ====
section
/-! SUPPORT. What an instruction can do, and what a step can do: every instruction answers a next state, which is either
the entry of a fault or a completion; and a step is the transition of the agent whose turn it is. -/

namespace Sys2Proof.Machine

/-! ### Instructions -/

/-- Every instruction answers a next state: none stops the machine, and none is refused. -/
theorem exec_answers (i : Instr) (s : State) : ∃ t, exec i s = .next t := by
  have hrange (ok : Nat → Bool) (a k : Nat) (u : State) :
      ∃ t, checkedRange s ok a k (.next u) = .next t := by
    rcases checkedRange_cases s ok a k (.next u) with ⟨h, -⟩ | ⟨b, -, h⟩ <;> exact ⟨_, h⟩
  cases i with
  | drwVxVyN x y n => exact hrange _ _ _ _
  | ldBVx x => exact hrange _ _ _ _
  | ldMemVx x => exact hrange _ _ _ _
  | ldVxMem x => exact hrange _ _ _ _
  | ret => simp only [exec, execRet]; split <;> exact ⟨_, rfl⟩
  | callNnn nnn => simp only [exec, execCallNnn]; split <;> exact ⟨_, rfl⟩
  | addIVx x => simp only [exec, execAddIVx]; split <;> exact ⟨_, rfl⟩
  | _ => exact ⟨_, rfl⟩

/-- What no instruction changes when it does not fault: the keypad, the schedule and the fault record; and `run` only
becomes `WaitKey`. -/
structure Completed (s t : State) : Prop where
  keys : t.keys = s.keys
  schedule : t.schedule = s.schedule
  faultKind : t.faultKind = s.faultKind
  faultInfo : t.faultInfo = s.faultInfo
  run : t.run = s.run ∨ t.run = .waitKey

/-- A completed instruction: its effects in `u`, then the update of `PC` and `run`. -/
theorem completed_of {s u : State} (f : Flow) (h : u.keys = s.keys ∧ u.schedule = s.schedule ∧
    u.faultKind = s.faultKind ∧ u.faultInfo = s.faultInfo ∧ u.run = s.run) : Completed s (u.complete f) := by
  obtain ⟨h1, h2, h3, h4, h5⟩ := h
  refine ⟨by simpa using h1, by simpa using h2, by simpa using h3, by simpa using h4, ?_⟩
  cases f <;> first | exact .inl h5 | exact .inr rfl

/-- An instruction either enters a fault or completes. -/
theorem exec_cases {i : Instr} {s t : State} (h : exec i s = .next t) :
    (∃ k w, k ≠ .noFault ∧ t = s.enterFault k w) ∨ Completed s t := by
  have hplain {u : State} {f : Flow} (he : finish u f = .next t) (hu : u.keys = s.keys ∧ u.schedule = s.schedule ∧
      u.faultKind = s.faultKind ∧ u.faultInfo = s.faultInfo ∧ u.run = s.run) :
      (∃ k w, k ≠ .noFault ∧ t = s.enterFault k w) ∨ Completed s t := by
    rw [finish_eq, Host.Outcome.next.injEq] at he
    exact .inr (he ▸ completed_of f hu)
  have hraise {k : FaultKind} {w : Word} (he : raise s k w = .next t) (hk : k ≠ .noFault) :
      (∃ k w, k ≠ .noFault ∧ t = s.enterFault k w) ∨ Completed s t := by
    rw [raise_eq, Host.Outcome.next.injEq] at he
    exact .inl ⟨k, w, hk, he.symm⟩
  have hrange {ok : Nat → Bool} {a k : Nat} {u : State} {f : Flow}
      (he : checkedRange s ok a k (finish u f) = .next t) (hu : u.keys = s.keys ∧ u.schedule = s.schedule ∧
      u.faultKind = s.faultKind ∧ u.faultInfo = s.faultInfo ∧ u.run = s.run) :
      (∃ k w, k ≠ .noFault ∧ t = s.enterFault k w) ∨ Completed s t := by
    rcases checkedRange_cases s ok a k (finish u f) with ⟨hc, -⟩ | ⟨b, -, hc⟩
    · exact hplain (hc ▸ he) hu
    · exact hraise (k := .invalidAddress) (hc ▸ he) (by decide)
  cases i with
  | drwVxVyN x y n => exact hrange h (by simp)
  | ldBVx x => exact hrange h (by simp)
  | ldMemVx x => exact hrange h (by simp)
  | ldVxMem x =>
    refine hrange h ?_
    rw [loadRegs_frame]
    simp
  | ret =>
    simp only [exec, execRet] at h
    split at h
    · exact hplain h (by simp)
    · exact hraise h (by decide)
  | callNnn nnn =>
    simp only [exec, execCallNnn] at h
    split at h
    · exact hplain h (by simp)
    · exact hraise h (by decide)
  | addIVx x =>
    simp only [exec, execAddIVx] at h
    split at h
    · exact hplain h (by simp)
    · exact hraise h (by decide)
  | _ => exact hplain h (by simp)

/-! ### Steps -/

theorem step_of_no_schedule {s : State} (h : s.schedule = []) : step s = engineStep s := by
  simp only [step, nextTransition, h]

theorem step_of_schedule {s : State} {e : Event} {rest : List Event} (h : s.schedule = e :: rest) :
    step s = transition e { s with schedule := rest } := by
  simp only [step, nextTransition, h]

/-- A step is the transition of the first agent of the schedule, or the engine's when none is listed. -/
theorem step_cases (s : State) :
    (s.schedule = [] ∧ step s = engineStep s) ∨
    ∃ e rest, s.schedule = e :: rest ∧ step s = transition e { s with schedule := rest } := by
  cases h : s.schedule with
  | nil => exact .inl ⟨rfl, step_of_no_schedule h⟩
  | cons e rest => exact .inr ⟨e, rest, rfl, step_of_schedule h⟩

theorem engineStep_running {s : State} (h : s.run = .running) : engineStep s = runInstruction s := by
  simp only [engineStep, h]

theorem engineStep_waitKey {s : State} (h : s.run = .waitKey) : engineStep s = .next s.waitSample := by
  simp only [engineStep, h]

theorem runInstruction_of_decode {s : State} {i : Instr} (hp : fetchable s.pc = true)
    (hd : decode s.fetchWord = .ok i) : runInstruction s = exec i s := by
  simp only [runInstruction, hp, hd, if_true]

/-- An instruction step faults at the fetch, faults at the decode, or runs the decoded instruction, in this order
(R116). -/
theorem runInstruction_cases (s : State) :
    (fetchable s.pc = false ∧ runInstruction s = .next (s.enterFault .invalidAddress s.pc)) ∨
    (∃ e, fetchable s.pc = true ∧ decode s.fetchWord = .error e ∧
      runInstruction s = .next (s.enterFault .unknownOpcode s.fetchWord)) ∨
    ∃ i, fetchable s.pc = true ∧ decode s.fetchWord = .ok i ∧ runInstruction s = exec i s := by
  cases hp : fetchable s.pc with
  | false => exact .inl ⟨rfl, by simp [runInstruction, hp]⟩
  | true =>
    cases hd : decode s.fetchWord with
    | error e => exact .inr (.inl ⟨e, rfl, rfl, by simp [runInstruction, hp, hd]⟩)
    | ok i => exact .inr (.inr ⟨i, rfl, rfl, runInstruction_of_decode hp hd⟩)

/-! ### The wait step (R109) -/

theorem lowestKey_eq_none {ks : Word} : lowestKey ks = none ↔ ∀ k : Fin 16, ks.getLsbD k.val = false := by
  simp [lowestKey, List.find?_eq_none]

/-- The key found is set, and every lower one is not. -/
theorem lowestKey_eq_some {ks : Word} {k : Fin 16} (h : lowestKey ks = some k) :
    ks.getLsbD k.val = true ∧ ∀ j : Fin 16, j < k → ks.getLsbD j.val = false := by
  obtain ⟨hk, pre, post, hsplit, hpre⟩ := List.find?_eq_some_iff_append.1 h
  refine ⟨hk, fun j hj => ?_⟩
  have hs : (List.finRange 16).Pairwise (· < ·) := List.pairwise_lt_finRange 16
  rw [hsplit, List.pairwise_append] at hs
  have hmem : j ∈ pre ++ k :: post := hsplit ▸ List.mem_finRange j
  rcases List.mem_append.1 hmem with hm | hm
  · simpa using hpre j hm
  · rcases List.mem_cons.1 hm with rfl | hm
    · exact absurd hj (lt_irrefl _)
    · exact absurd ((List.pairwise_cons.1 hs.2.1).1 j hm) (by omega)

theorem newKeys_getLsbD (s : State) (k : Fin 16) :
    s.newKeys.getLsbD k.val = (s.keys.getLsbD k.val && !s.prevKeys.getLsbD k.val) := by
  simp [State.newKeys]

/-- A wait step either stores the lowest new key and runs on, or remembers the keypad. -/
theorem waitSample_cases (s : State) :
    (∃ k, lowestKey s.newKeys = some k ∧
      s.waitSample = { s.setReg s.waitX (BitVec.ofNat 8 k.val) with pc := s.pc + 2, run := .running }) ∨
    (lowestKey s.newKeys = none ∧ s.waitSample = { s with prevKeys := s.keys }) := by
  unfold State.waitSample
  cases h : lowestKey s.newKeys with
  | none => exact .inr ⟨rfl, rfl⟩
  | some k => exact .inl ⟨k, rfl, rfl⟩

end Sys2Proof.Machine
end

