-- ==== Sys2Proof/Laws/PerInstr.lean ====
section
/-! SUPPORT. Facts of every instruction as syntax, one lemma for each constructor. `EncodeRow`: the word of an instruction
matches that instruction's own row of the opcode table, "(w & mask) == match" (R57). -/

namespace Sys2Proof.Laws.EncodeRow

/-- The encoding of the instruction matches the row of the opcode table that the instruction comes from. -/
def Statement (i : Instr) : Prop := i.row.matchesWord (encode i) = true

/-- A mask of the class alone keeps the class. -/
theorem mask_class_nnn (c : BitVec 4) (a : BitVec 12) : formatNnn c a &&& 0xF000#16 = c ++ 0#12 := by
  rw [show (0xF000#16 : Word) = BitVec.allOnes 4 ++ 0#12 by decide, formatNnn, BitVec.and_append]
  simp only [BitVec.and_allOnes, BitVec.and_zero]

theorem mask_class_xkk (c : BitVec 4) (x : Reg) (kk : Byte) : formatXkk c x kk &&& 0xF000#16 = c ++ 0#12 := by
  rw [show formatXkk c x kk = formatNnn c (regBits x ++ kk) from BitVec.append_assoc]
  exact mask_class_nnn c _

theorem mask_class_xyn (c : BitVec 4) (x y : Reg) (n : BitVec 4) : formatXyn c x y n &&& 0xF000#16 = c ++ 0#12 := by
  rw [show formatXyn c x y n = formatXkk c x (regBits y ++ n) from BitVec.append_assoc]
  exact mask_class_xkk c x _

/-- A mask of the class and the low byte keeps both. -/
theorem mask_subcode_kk (c : BitVec 4) (x : Reg) (kk : Byte) :
    formatXkk c x kk &&& 0xF0FF#16 = c ++ 0#4 ++ kk := by
  rw [show (0xF0FF#16 : Word) = BitVec.allOnes 4 ++ 0#4 ++ BitVec.allOnes 8 by decide, formatXkk, BitVec.and_append,
    BitVec.and_append]
  simp only [BitVec.and_allOnes, BitVec.and_zero]

/-- A mask of the class and the low nibble keeps both. -/
theorem mask_subcode_n (c : BitVec 4) (x y : Reg) (n : BitVec 4) :
    formatXyn c x y n &&& 0xF00F#16 = c ++ 0#4 ++ 0#4 ++ n := by
  rw [show (0xF00F#16 : Word) = BitVec.allOnes 4 ++ 0#4 ++ 0#4 ++ BitVec.allOnes 4 by decide, formatXyn,
    BitVec.and_append, BitVec.and_append, BitVec.and_append]
  simp only [BitVec.and_allOnes, BitVec.and_zero]

theorem cls : Statement .cls := rfl
theorem ret : Statement .ret := rfl
theorem jpNnn (nnn : BitVec 12) : Statement (.jpNnn nnn) := by
  rw [Statement, OpcodeRow.matchesWord, encode, Instr.row, mask_class_nnn]; decide
theorem callNnn (nnn : BitVec 12) : Statement (.callNnn nnn) := by
  rw [Statement, OpcodeRow.matchesWord, encode, Instr.row, mask_class_nnn]; decide
theorem seVxKk (x : Reg) (kk : Byte) : Statement (.seVxKk x kk) := by
  rw [Statement, OpcodeRow.matchesWord, encode, Instr.row, mask_class_xkk]; decide
theorem sneVxKk (x : Reg) (kk : Byte) : Statement (.sneVxKk x kk) := by
  rw [Statement, OpcodeRow.matchesWord, encode, Instr.row, mask_class_xkk]; decide
theorem seVxVy (x y : Reg) : Statement (.seVxVy x y) := by
  rw [Statement, OpcodeRow.matchesWord, encode, Instr.row, mask_subcode_n]; decide
theorem ldVxKk (x : Reg) (kk : Byte) : Statement (.ldVxKk x kk) := by
  rw [Statement, OpcodeRow.matchesWord, encode, Instr.row, mask_class_xkk]; decide
theorem addVxKk (x : Reg) (kk : Byte) : Statement (.addVxKk x kk) := by
  rw [Statement, OpcodeRow.matchesWord, encode, Instr.row, mask_class_xkk]; decide
theorem ldVxVy (x y : Reg) : Statement (.ldVxVy x y) := by
  rw [Statement, OpcodeRow.matchesWord, encode, Instr.row, mask_subcode_n]; decide
theorem orVxVy (x y : Reg) : Statement (.orVxVy x y) := by
  rw [Statement, OpcodeRow.matchesWord, encode, Instr.row, mask_subcode_n]; decide
theorem andVxVy (x y : Reg) : Statement (.andVxVy x y) := by
  rw [Statement, OpcodeRow.matchesWord, encode, Instr.row, mask_subcode_n]; decide
theorem xorVxVy (x y : Reg) : Statement (.xorVxVy x y) := by
  rw [Statement, OpcodeRow.matchesWord, encode, Instr.row, mask_subcode_n]; decide
theorem addVxVy (x y : Reg) : Statement (.addVxVy x y) := by
  rw [Statement, OpcodeRow.matchesWord, encode, Instr.row, mask_subcode_n]; decide
theorem subVxVy (x y : Reg) : Statement (.subVxVy x y) := by
  rw [Statement, OpcodeRow.matchesWord, encode, Instr.row, mask_subcode_n]; decide
theorem shrVxVy (x y : Reg) : Statement (.shrVxVy x y) := by
  rw [Statement, OpcodeRow.matchesWord, encode, Instr.row, mask_subcode_n]; decide
theorem subnVxVy (x y : Reg) : Statement (.subnVxVy x y) := by
  rw [Statement, OpcodeRow.matchesWord, encode, Instr.row, mask_subcode_n]; decide
theorem shlVxVy (x y : Reg) : Statement (.shlVxVy x y) := by
  rw [Statement, OpcodeRow.matchesWord, encode, Instr.row, mask_subcode_n]; decide
theorem sneVxVy (x y : Reg) : Statement (.sneVxVy x y) := by
  rw [Statement, OpcodeRow.matchesWord, encode, Instr.row, mask_subcode_n]; decide
theorem ldINnn (nnn : BitVec 12) : Statement (.ldINnn nnn) := by
  rw [Statement, OpcodeRow.matchesWord, encode, Instr.row, mask_class_nnn]; decide
theorem jpV0Nnn (nnn : BitVec 12) : Statement (.jpV0Nnn nnn) := by
  rw [Statement, OpcodeRow.matchesWord, encode, Instr.row, mask_class_nnn]; decide
theorem rndVxKk (x : Reg) (kk : Byte) : Statement (.rndVxKk x kk) := by
  rw [Statement, OpcodeRow.matchesWord, encode, Instr.row, mask_class_xkk]; decide
theorem drwVxVyN (x y : Reg) (n : Nat) : Statement (.drwVxVyN x y n) := by
  rw [Statement, OpcodeRow.matchesWord, encode, Instr.row, mask_class_xyn]; decide
theorem skpVx (x : Reg) : Statement (.skpVx x) := by
  rw [Statement, OpcodeRow.matchesWord, encode, Instr.row, mask_subcode_kk]; decide
theorem sknpVx (x : Reg) : Statement (.sknpVx x) := by
  rw [Statement, OpcodeRow.matchesWord, encode, Instr.row, mask_subcode_kk]; decide
theorem ldVxDt (x : Reg) : Statement (.ldVxDt x) := by
  rw [Statement, OpcodeRow.matchesWord, encode, Instr.row, mask_subcode_kk]; decide
theorem ldVxK (x : Reg) : Statement (.ldVxK x) := by
  rw [Statement, OpcodeRow.matchesWord, encode, Instr.row, mask_subcode_kk]; decide
theorem ldDtVx (x : Reg) : Statement (.ldDtVx x) := by
  rw [Statement, OpcodeRow.matchesWord, encode, Instr.row, mask_subcode_kk]; decide
theorem ldStVx (x : Reg) : Statement (.ldStVx x) := by
  rw [Statement, OpcodeRow.matchesWord, encode, Instr.row, mask_subcode_kk]; decide
theorem addIVx (x : Reg) : Statement (.addIVx x) := by
  rw [Statement, OpcodeRow.matchesWord, encode, Instr.row, mask_subcode_kk]; decide
theorem ldFVx (x : Reg) : Statement (.ldFVx x) := by
  rw [Statement, OpcodeRow.matchesWord, encode, Instr.row, mask_subcode_kk]; decide
theorem ldBVx (x : Reg) : Statement (.ldBVx x) := by
  rw [Statement, OpcodeRow.matchesWord, encode, Instr.row, mask_subcode_kk]; decide
theorem ldMemVx (x : Reg) : Statement (.ldMemVx x) := by
  rw [Statement, OpcodeRow.matchesWord, encode, Instr.row, mask_subcode_kk]; decide
theorem ldVxMem (x : Reg) : Statement (.ldVxMem x) := by
  rw [Statement, OpcodeRow.matchesWord, encode, Instr.row, mask_subcode_kk]; decide

end Sys2Proof.Laws.EncodeRow
end

