-- ==== Sys2Proof/Tests/Slice0.lean ====
section
/-! SUPPORT. The model's own tests. Expected results are the vectors of 95_test_vectors.md (their names in the
docstrings) and words written out from the encodings of rule R53; then, for each statement of
`Sys2Proof/Certificates/Slice0/Obligations.lean` that has hypotheses, a state and operands that meet them. -/

namespace Sys2Proof.Tests

open Sys2Proof.Machine

/-! ### Small states -/

/-- The state of a next outcome. -/
def nextOf : Host.Outcome State Fault Refusal → Option State
  | .next t => some t
  | .fault _ => none
  | .refused _ => none

/-- The state at reset with some registers set. -/
def withRegs (rs : List (Reg × Byte)) : State := rs.foldl (fun s p => s.setReg p.1 p.2) State.reset

/-- A state with bytes stored from an address. -/
def withBytes (s : State) (a : Nat) (bs : List Byte) : State := { s with mem := s.mem.writeBytes a bs }

/-- One step with a word at `PC`. -/
def stepOn (w : Word) (s : State) : Option State := nextOf (step (withBytes s s.pc.toNat (bytesOfWord w)))

/-- The host-visible status of a faulted state, and its `PC`. -/
def record (t : State) : RunState × FaultKind × Word × Word := (t.run, t.faultKind, t.faultInfo, t.pc)

/-! ### Well-formedness -/

theorem test_wellFormed_refuses_sixteen_rows : Instr.wellFormed (.drwVxVyN 0 0 16) = false := by decide
theorem test_wellFormed_accepts_fifteen_rows : Instr.wellFormed (.drwVxVyN 15 15 15) = true := by decide

/-! ### Words written out from the formats of rule R53 and the constant nibbles of rule R55 -/

theorem test_decode_class_0 :
    decode 0b0000_0000_1110_0000#16 = .ok .cls ∧ decode 0b0000_0000_1110_1110#16 = .ok .ret := by decide

theorem test_decode_control :
    decode 0b0001_0010_0000_0100#16 = .ok (.jpNnn 0x204#12) ∧
    decode 0b0010_0010_0001_0000#16 = .ok (.callNnn 0x210#12) ∧
    decode 0b0011_0111_1010_0101#16 = .ok (.seVxKk 7 0xA5#8) ∧
    decode 0b0100_1000_0011_1100#16 = .ok (.sneVxKk 8 0x3C#8) ∧
    decode 0b0101_0001_1110_0000#16 = .ok (.seVxVy 1 14) ∧
    decode 0b1001_1110_0001_0000#16 = .ok (.sneVxVy 14 1) ∧
    decode 0b1011_0011_0000_0000#16 = .ok (.jpV0Nnn 0x300#12) := by decide

theorem test_decode_arith :
    decode 0b0110_0000_0000_1010#16 = .ok (.ldVxKk 0 0x0A#8) ∧
    decode 0b0111_1111_0000_0001#16 = .ok (.addVxKk 15 0x01#8) ∧
    decode 0b1000_0001_0010_0000#16 = .ok (.ldVxVy 1 2) ∧
    decode 0b1000_0001_0010_0001#16 = .ok (.orVxVy 1 2) ∧
    decode 0b1000_0001_0010_0010#16 = .ok (.andVxVy 1 2) ∧
    decode 0b1000_0001_0010_0011#16 = .ok (.xorVxVy 1 2) ∧
    decode 0b1000_0001_0010_0100#16 = .ok (.addVxVy 1 2) ∧
    decode 0b1000_0001_0010_0101#16 = .ok (.subVxVy 1 2) ∧
    decode 0b1000_0001_0010_0110#16 = .ok (.shrVxVy 1 2) ∧
    decode 0b1000_0001_0010_0111#16 = .ok (.subnVxVy 1 2) ∧
    decode 0b1000_0001_0010_1110#16 = .ok (.shlVxVy 1 2) ∧
    decode 0b1100_0011_1111_0000#16 = .ok (.rndVxKk 3 0xF0#8) := by decide

theorem test_decode_index_display_keypad :
    decode 0b1010_0011_0000_0000#16 = .ok (.ldINnn 0x300#12) ∧
    decode 0b1101_0001_0010_0101#16 = .ok (.drwVxVyN 1 2 5) ∧
    decode 0b1110_0001_1001_1110#16 = .ok (.skpVx 1) ∧
    decode 0b1110_0001_1010_0001#16 = .ok (.sknpVx 1) := by decide

theorem test_decode_class_F :
    decode 0b1111_0001_0000_0111#16 = .ok (.ldVxDt 1) ∧
    decode 0b1111_0010_0000_1010#16 = .ok (.ldVxK 2) ∧
    decode 0b1111_0011_0001_0101#16 = .ok (.ldDtVx 3) ∧
    decode 0b1111_0100_0001_1000#16 = .ok (.ldStVx 4) ∧
    decode 0b1111_0101_0001_1110#16 = .ok (.addIVx 5) ∧
    decode 0b1111_0110_0010_1001#16 = .ok (.ldFVx 6) ∧
    decode 0b1111_0111_0011_0011#16 = .ok (.ldBVx 7) ∧
    decode 0b1111_1000_0101_0101#16 = .ok (.ldMemVx 8) ∧
    decode 0b1111_1001_0110_0101#16 = .ok (.ldVxMem 9) := by decide

/-- A35, B19, B20, F4 to F7, K11. -/
theorem test_decode_rejects_by_name :
    [0x0000#16, 0x0123#16, 0x5011#16, 0x8008#16, 0x9011#16, 0xE0F0#16, 0xF000#16, 0xFFFF#16].all
      (fun w => decide (decode w = .error (.unknownOpcode w))) = true := by decide

theorem test_decodeBytes_needs_two_bytes :
    decodeBytes [0x60#8] = .error .tooFewBytes ∧
    decodeBytes [0x60#8, 0x0A#8, 0x61#8] = .ok (.ldVxKk 0 0x0A#8, [0x61#8]) := by decide

theorem test_decodeTableWord : decodeTableWord 16 0x600A = some (.ldVxKk 0 0x0A#8) ∧ decodeTableWord 16 0 = none := by
  decide

/-- The placed word is what the first step after reset runs. -/
theorem test_withFetchWord :
    nextOf (step (State.reset.withFetchWord 16 0x600A)) =
      (nextOf (exec (.ldVxKk 0 0x0A#8) (State.reset.withFetchWord 16 0x600A))) ∧
    (State.reset.withFetchWord 16 0x600A).fetchWord = 0x600A#16 := by decide

/-- "LD V0,10; LD V1,5; ADD V0,V1" for the words `0x600A`, `0x6105`, `0x8014` (R61). -/
theorem test_assembly :
    (assemble ⟨.LD, [.reg 0, .num 10]⟩).map encode = some 0x600A#16 ∧
    (assemble ⟨.LD, [.reg 1, .num 5]⟩).map encode = some 0x6105#16 ∧
    (assemble ⟨.ADD, [.reg 0, .reg 1]⟩).map encode = some 0x8014#16 ∧
    (asmOf (.ldVxMem 10)).text = "LD VA, [I]" := by decide

/-- A number that its field cannot hold, and a jump relative to another register than `V0`, are no instruction. -/
theorem test_assembly_refuses :
    assemble ⟨.LD, [.reg 0, .num 256]⟩ = none ∧ assemble ⟨.DRW, [.reg 0, .reg 1, .num 16]⟩ = none ∧
    assemble ⟨.JP, [.reg 1, .num 0x300]⟩ = none := by decide

/-! ### One step of each instruction (95_test_vectors.md, part 2) -/

/-- A1, A2. -/
theorem test_ld_kk : (stepOn 0x600A#16 (withRegs [])).map (fun t => (t.reg 0, t.pc)) = some (0x0A#8, 0x202#16) ∧
    (stepOn 0x6F55#16 (withRegs [(15, 0x01#8)])).map (fun t => t.reg 15) = some 0x55#8 := by decide
/-- A3, A4. -/
theorem test_add_kk :
    (stepOn 0x7001#16 (withRegs [(0, 0xFF#8), (15, 0x07#8)])).map (fun t => (t.reg 0, t.reg 15)) =
      some (0x00#8, 0x07#8) ∧
    (stepOn 0x7F01#16 (withRegs [(15, 0x01#8)])).map (fun t => t.reg 15) = some 0x02#8 := by decide
/-- A5. -/
theorem test_ld_vy : (stepOn 0x8010#16 (withRegs [(0, 0x12#8), (1, 0x34#8)])).map (fun t => (t.reg 0, t.reg 1)) =
    some (0x34#8, 0x34#8) := by decide
/-- A6. -/
theorem test_or : (stepOn 0x8011#16 (withRegs [(0, 0xF0#8), (1, 0x0F#8), (15, 0x55#8)])).map
    (fun t => (t.reg 0, t.reg 15)) = some (0xFF#8, 0x55#8) := by decide
/-- A7. -/
theorem test_and : (stepOn 0x8012#16 (withRegs [(0, 0xF0#8), (1, 0x3C#8), (15, 0x55#8)])).map
    (fun t => (t.reg 0, t.reg 15)) = some (0x30#8, 0x55#8) := by decide
/-- A8. -/
theorem test_xor : (stepOn 0x8013#16 (withRegs [(0, 0xFF#8), (1, 0x0F#8), (15, 0x55#8)])).map
    (fun t => (t.reg 0, t.reg 15)) = some (0xF0#8, 0x55#8) := by decide
/-- A11. -/
theorem test_add_carry : (stepOn 0x8014#16 (withRegs [(0, 0xFF#8), (1, 0xFF#8)])).map (fun t => (t.reg 0, t.reg 15)) =
    some (0xFE#8, 0x01#8) := by decide
/-- A14, A15: both operands one register, and `VF` the destination. -/
theorem test_add_aliases :
    (stepOn 0x8004#16 (withRegs [(0, 0x90#8)])).map (fun t => (t.reg 0, t.reg 15)) = some (0x20#8, 0x01#8) ∧
    (stepOn 0x8F14#16 (withRegs [(15, 0x10#8), (1, 0xF5#8)])).map (fun t => t.reg 15) = some 0x01#8 := by decide
/-- A17, A18. -/
theorem test_sub :
    (stepOn 0x8015#16 (withRegs [(0, 0x03#8), (1, 0x05#8)])).map (fun t => (t.reg 0, t.reg 15)) =
      some (0xFE#8, 0x00#8) ∧
    (stepOn 0x8015#16 (withRegs [(0, 0x07#8), (1, 0x07#8)])).map (fun t => (t.reg 0, t.reg 15)) =
      some (0x00#8, 0x01#8) := by decide
/-- A24, A25. -/
theorem test_shr :
    (stepOn 0x80A6#16 (withRegs [(0, 0x05#8), (10, 0x99#8)])).map (fun t => (t.reg 0, t.reg 15, t.reg 10)) =
      some (0x02#8, 0x01#8, 0x99#8) ∧
    (stepOn 0x8F06#16 (withRegs [(15, 0x02#8)])).map (fun t => t.reg 15) = some 0x00#8 := by decide
/-- A26, A27. -/
theorem test_subn :
    (stepOn 0x8017#16 (withRegs [(0, 0x03#8), (1, 0x05#8)])).map (fun t => (t.reg 0, t.reg 15)) =
      some (0x02#8, 0x01#8) ∧
    (stepOn 0x8017#16 (withRegs [(0, 0x05#8), (1, 0x03#8)])).map (fun t => (t.reg 0, t.reg 15)) =
      some (0xFE#8, 0x00#8) := by decide
/-- A28, A31. -/
theorem test_shl :
    (stepOn 0x801E#16 (withRegs [(0, 0x81#8)])).map (fun t => (t.reg 0, t.reg 15)) = some (0x02#8, 0x01#8) ∧
    (stepOn 0x8F0E#16 (withRegs [(15, 0x40#8)])).map (fun t => t.reg 15) = some 0x00#8 := by decide
/-- A32, A33, with the byte drawn given. -/
theorem test_rnd : (nextOf (rndWith 0xAB#8 0 0x00#8 (withRegs []))).map (fun t => t.reg 0) = some 0x00#8 ∧
    (nextOf (rndWith 0xAB#8 0 0x0F#8 (withRegs []))).map (fun t => (t.reg 0, t.pc, t.draws)) =
      some (0x0B#8, 0x202#16, 1) := by decide
/-- B2: the jump completes, and the next fetch faults. -/
theorem test_jp : (stepOn 0x1201#16 (withRegs [])).map (fun t => t.pc) = some 0x201#16 ∧
    (nextOf (step { State.reset with pc := 0x201#16 })).map record =
      some (.halted, .invalidAddress, 0x201#16, 0x201#16) := by decide
/-- B3, B5. -/
theorem test_jp_v0 : (stepOn 0xB300#16 (withRegs [(0, 0x04#8)])).map (fun t => t.pc) = some 0x304#16 ∧
    (stepOn 0xBFFF#16 (withRegs [(0, 0xFF#8)])).map (fun t => t.pc) = some 0x10FE#16 := by decide
/-- B6, B8. -/
theorem test_call :
    (stepOn 0x2210#16 { State.reset with pc := 0x204#16 }).map (fun t => (t.stack[0], t.sp, t.pc)) =
      some (0x206#16, 1, 0x210#16) ∧
    (stepOn 0x2300#16 { State.reset with pc := 0xFFE#16 }).map (fun t => (t.stack[0], t.sp, t.pc)) =
      some (0x1000#16, 1, 0x300#16) := by decide
/-- B7. -/
theorem test_call_overflows : (stepOn 0x2300#16 { State.reset with sp := 16 }).map (fun t => (record t, t.sp)) =
    some ((.halted, .stackOverflow, 0x2300#16, 0x200#16), 16) := by decide
/-- B9. -/
theorem test_ret : (stepOn 0x00EE#16 { State.reset with sp := 1, stack := State.reset.stack.set 0 0x206#16 }).map
    (fun t => (t.sp, t.pc, t.stack[0])) = some (0, 0x206#16, 0x206#16) := by decide
/-- B10. -/
theorem test_ret_underflows : (stepOn 0x00EE#16 State.reset).map record =
    some (.halted, .stackUnderflow, 0x00EE#16, 0x200#16) := by decide
/-- B11, B12, and B21. -/
theorem test_se_kk : (stepOn 0x3005#16 (withRegs [(0, 0x05#8)])).map (fun t => t.pc) = some 0x204#16 ∧
    (stepOn 0x3005#16 (withRegs [(0, 0x06#8)])).map (fun t => t.pc) = some 0x202#16 ∧
    (stepOn 0x3000#16 { State.reset with pc := 0xFFE#16 }).map (fun t => t.pc) = some 0x1002#16 := by decide
/-- B13, B14. -/
theorem test_sne_kk : (stepOn 0x4005#16 (withRegs [(0, 0x05#8)])).map (fun t => t.pc) = some 0x202#16 ∧
    (stepOn 0x4005#16 (withRegs [(0, 0x06#8)])).map (fun t => t.pc) = some 0x204#16 := by decide
/-- B15, B16. -/
theorem test_se_vy : (stepOn 0x5010#16 (withRegs [(0, 0x05#8), (1, 0x05#8)])).map (fun t => t.pc) = some 0x204#16 ∧
    (stepOn 0x5010#16 (withRegs [(0, 0x05#8), (1, 0x06#8)])).map (fun t => t.pc) = some 0x202#16 := by decide
/-- B17, B18. -/
theorem test_sne_vy : (stepOn 0x9010#16 (withRegs [(0, 0x05#8), (1, 0x05#8)])).map (fun t => t.pc) = some 0x202#16 ∧
    (stepOn 0x9010#16 (withRegs [(0, 0x05#8), (1, 0x06#8)])).map (fun t => t.pc) = some 0x204#16 := by decide
/-- M1. -/
theorem test_ld_i : (stepOn 0xA300#16 State.reset).map (fun t => (t.i, t.pc)) = some (0x300#16, 0x202#16) := by decide
/-- M3, M5. -/
theorem test_add_i :
    (stepOn 0xF01E#16 { withRegs [(0, 0x0F#8)] with i := 0xFF0#16 }).map (fun t => t.i) = some 0xFFF#16 ∧
    (stepOn 0xFF1E#16 { withRegs [(15, 0xFF#8)] with i := 0x300#16 }).map (fun t => (t.i, t.reg 15)) =
      some (0x3FF#16, 0xFF#8) := by decide
/-- M4. -/
theorem test_add_i_faults :
    (stepOn 0xF01E#16 { withRegs [(0, 0x01#8)] with i := 0xFFF#16 }).map (fun t => (record t, t.i)) =
      some ((.halted, .invalidAddress, 0x1000#16, 0x200#16), 0xFFF#16) := by decide
/-- M7, M8. -/
theorem test_ld_f : (stepOn 0xF029#16 (withRegs [(0, 0x1A#8)])).map (fun t => t.i) = some 0x032#16 ∧
    (stepOn 0xF029#16 (withRegs [(0, 0x0F#8)])).map (fun t => t.i) = some 0x04B#16 := by decide
/-- M13. -/
theorem test_ld_b : (stepOn 0xF033#16 { withRegs [(0, 0xFE#8)] with i := 0x300#16 }).map
    (fun t => (t.mem.read 0x300, t.mem.read 0x301, t.mem.read 0x302, t.mem.read 0x303)) =
      some (0x02#8, 0x05#8, 0x04#8, 0x00#8) := by decide
/-- M14, M15. -/
theorem test_ld_b_faults :
    (stepOn 0xF033#16 { withRegs [(0, 0x01#8)] with i := 0xFFE#16 }).map (fun t => (record t, t.mem.read 0xFFF)) =
      some ((.halted, .invalidAddress, 0x1000#16, 0x200#16), 0x00#8) ∧
    (stepOn 0xF033#16 { withRegs [(0, 0x01#8)] with i := 0x1FF#16 }).map record =
      some (.halted, .invalidAddress, 0x1FF#16, 0x200#16) := by decide
/-- M16. -/
theorem test_store : (stepOn 0xF255#16 { withRegs [(0, 0x01#8), (1, 0x02#8), (2, 0x03#8), (3, 0x04#8)] with
    i := 0x300#16 }).map (fun t => (t.mem.read 0x300, t.mem.read 0x301, t.mem.read 0x302, t.mem.read 0x303, t.i)) =
      some (0x01#8, 0x02#8, 0x03#8, 0x00#8, 0x300#16) := by decide
/-- M18, M19. -/
theorem test_store_faults :
    (stepOn 0xF255#16 { State.reset with i := 0x1FF#16 }).map record =
      some (.halted, .invalidAddress, 0x1FF#16, 0x200#16) ∧
    (stepOn 0xF255#16 { withRegs [(0, 0x01#8)] with i := 0xFFE#16 }).map (fun t => (record t, t.mem.read 0xFFE)) =
      some ((.halted, .invalidAddress, 0x1000#16, 0x200#16), 0x00#8) := by decide
/-- M20, M21. -/
theorem test_load :
    (stepOn 0xFF65#16 State.reset).map (fun t => t.v.toList) =
      some [0xF0#8, 0x90#8, 0x90#8, 0x90#8, 0xF0#8, 0x20#8, 0x60#8, 0x20#8, 0x20#8, 0x70#8, 0xF0#8, 0x10#8, 0xF0#8,
        0x80#8, 0xF0#8, 0xF0#8] ∧
    (stepOn 0xF065#16 (withBytes { State.reset with i := 0xFFF#16 } 0xFFF [0x77#8])).map (fun t => t.reg 0) =
      some 0x77#8 := by decide
/-- M22. -/
theorem test_load_faults : (stepOn 0xF265#16 (withBytes { State.reset with i := 0xFFE#16 } 0xFFE [0x77#8])).map
    (fun t => (record t, t.reg 0)) = some ((.halted, .invalidAddress, 0x1000#16, 0x200#16), 0x00#8) := by decide
/-- D1. -/
theorem test_cls : (stepOn 0x00E0#16 { withRegs [(15, 0x05#8)] with
    fb := Vector.replicate 32 0xFF#64, frameSeq := 7 }).map (fun t => (t.fb == blankScreen, t.frameSeq, t.reg 15)) =
      some (true, 8, 0x05#8) := by decide
/-- D5 and D6: the draw wraps at the right edge and at the bottom edge. -/
theorem test_drw_wraps :
    (stepOn 0xD011#16 (withBytes { withRegs [(0, 0x3E#8), (1, 0x1F#8)] with i := 0x300#16 } 0x300 [0xFF#8])).map
      (fun t => (t.fb[31], t.reg 15, t.frameSeq)) = some (0xC00000000000003F#64, 0x00#8, 1) ∧
    (stepOn 0xD012#16 (withBytes { withRegs [(1, 0x1F#8)] with i := 0x300#16 } 0x300 [0x80#8, 0x80#8])).map
      (fun t => (t.fb[31], t.fb[0])) = some (0x1#64, 0x1#64) := by decide
/-- D7, D8, D9 and D10: `VF` as a coordinate, no row, a sprite that leaves memory, and a collision. -/
theorem test_drw_flag :
    (stepOn 0xDFF1#16 (withBytes { withRegs [(15, 0x03#8)] with i := 0x500#16 } 0x500 [0x80#8])).map
      (fun t => (t.fb[3], t.reg 15)) = some (0x8#64, 0x00#8) ∧
    (stepOn 0xD010#16 (withRegs [(15, 0x05#8)])).map (fun t => (t.fb[0], t.reg 15, t.frameSeq)) =
      some (0x0#64, 0x00#8, 1) ∧
    (stepOn 0xD015#16 { withRegs [(15, 0x05#8)] with i := 0xFFE#16 }).map
      (fun t => (record t, t.reg 15, t.frameSeq)) =
      some ((.halted, .invalidAddress, 0x1000#16, 0x200#16), 0x05#8, 0) ∧
    (stepOn 0xD002#16 (withBytes { State.reset with
      i := 0x300#16, fb := (blankScreen.set 0 0x1#64).set 1 0x1#64 } 0x300 [0x80#8, 0x00#8])).map
      (fun t => (t.fb[0], t.fb[1], t.reg 15)) = some (0x0#64, 0x1#64, 0x01#8) := by decide
/-- T1. -/
theorem test_ld_vx_dt : (stepOn 0xF307#16 { State.reset with dt := 0x3C#8 }).map (fun t => (t.reg 3, t.dt)) =
    some (0x3C#8, 0x3C#8) := by decide
/-- T2. -/
theorem test_ld_dt : (stepOn 0xF015#16 (withRegs [(0, 0x3C#8)])).map (fun t => t.dt) = some 0x3C#8 := by decide
/-- T3. -/
theorem test_ld_st : (stepOn 0xF318#16 (withRegs [(3, 0x02#8)])).map (fun t => (t.st, t.soundActive)) =
    some (0x02#8, true) := by decide
/-- K1, K3, K2. -/
theorem test_skp :
    (stepOn 0xE19E#16 { withRegs [(1, 0x07#8)] with keys := 0x0080#16 }).map (fun t => t.pc) = some 0x204#16 ∧
    (stepOn 0xE09E#16 { withRegs [(0, 0x15#8)] with keys := 0x0020#16 }).map (fun t => t.pc) = some 0x204#16 ∧
    (stepOn 0xE19E#16 (withRegs [(1, 0x07#8)])).map (fun t => t.pc) = some 0x202#16 := by decide
/-- K4, K5. -/
theorem test_sknp :
    (stepOn 0xE0A1#16 { withRegs [(0, 0x15#8)] with keys := 0x0020#16 }).map (fun t => t.pc) = some 0x202#16 ∧
    (stepOn 0xE0A1#16 (withRegs [(0, 0x05#8)])).map (fun t => t.pc) = some 0x204#16 := by decide
/-- K6. -/
theorem test_ld_k : (stepOn 0xF20A#16 { State.reset with pc := 0x20A#16 }).map
    (fun t => (t.run, t.waitX, t.prevKeys, t.pc)) = some (.waitKey, 2, 0x0000#16, 0x20A#16) := by decide

/-! ### The steps that run no instruction -/

/-- A machine that waits in `F20A` at 0x20A. -/
def waiting : State :=
  withBytes { State.reset with pc := 0x20A#16, run := .waitKey, waitX := 2 } 0x20A (bytesOfWord 0xF20A#16)

/-- K8: keys 9 and 3 pressed since. -/
theorem test_wait_step : (nextOf (step { waiting with keys := 0x0208#16 })).map (fun t => (t.reg 2, t.pc, t.run)) =
    some (0x03#8, 0x20C#16, .running) := by decide
/-- K9: a held key does not end the wait, and its release is remembered. -/
theorem test_wait_step_held_key :
    (nextOf (step { waiting with keys := 0x0080#16, prevKeys := 0x0080#16 })).map (fun t => t.run) = some .waitKey ∧
    (nextOf (step { waiting with keys := 0x0000#16, prevKeys := 0x0080#16 })).map (fun t => (t.run, t.prevKeys)) =
      some (.waitKey, 0x0000#16) := by decide
/-- K10. -/
theorem test_cancel : (nextOf (step { waiting with schedule := [.cancel] })).map (fun t => (record t, t.waitX)) =
    some ((.stopped, .noFault, 0x0000#16, 0x20A#16), 2) := by decide
/-- T4 to T7. -/
theorem test_tick :
    (nextOf (step { State.reset with dt := 0x01#8, schedule := [.tick] })).map (fun t => (t.dt, t.st)) =
      some (0x00#8, 0x00#8) ∧
    (nextOf (step { State.reset with st := 0x05#8, schedule := [.tick] })).map (fun t => (t.dt, t.st)) =
      some (0x00#8, 0x04#8) ∧
    (nextOf (step { State.reset with dt := 0x05#8, run := .halted, schedule := [.tick] })).map (fun t => t.dt) =
      some 0x05#8 ∧
    (nextOf (step { waiting with dt := 0x05#8, schedule := [.tick] })).map (fun t => t.dt) = some 0x04#8 := by decide
/-- F1, F2: the last address that can be fetched from, and the first that cannot. -/
theorem test_fetch :
    (stepOn 0x600A#16 { State.reset with pc := 0xFFE#16 }).map (fun t => (t.reg 0, t.pc)) =
      some (0x0A#8, 0x1000#16) ∧
    (nextOf (step { State.reset with pc := 0x1000#16 })).map record =
      some (.halted, .invalidAddress, 0x1000#16, 0x1000#16) := by decide
/-- F9. -/
theorem test_final_states_have_no_step :
    nextOf (step { State.reset with run := .halted }) = none ∧
    nextOf (step { State.reset with run := .stopped }) = none := by decide
/-- F10: the empty ROM, which is the state at reset. -/
theorem test_empty_rom : (nextOf (step State.reset)).map record =
    some (.halted, .unknownOpcode, 0x0000#16, 0x200#16) := by decide
/-- E5's ROM, launched by the host: the bytes are where the first fetch reads them. -/
theorem test_launch : (nextOf (step { State.reset with
    pc := 0x300#16, schedule := [.launch [0x22#8, 0x04#8, 0x00#8, 0x00#8, 0x00#8, 0xEE#8]] })).map
      (fun t => (t.fetchWord, t.mem.read 0x205, t.pc)) = some (0x2204#16, 0xEE#8, 0x200#16) := by decide

/-! ### Witnesses: what meets the hypotheses of each statement

The name says which statement the witness is for. A statement with several clauses has a witness of each, at the
boundary values of its range; a statement without hypotheses has none. -/

/-- For DecodeOfEncodeIsTheInstruction, InstructionIsTwoBytesBigEndian and AssemblyNamesOneInstruction: every operand at
its largest value. -/
theorem witness_wellFormed :
    Instr.wellFormed (.drwVxVyN 15 15 15) = true ∧ Instr.wellFormed .cls = true ∧
      decodeBytes [0xDF#8, 0xFF#8, 0x00#8] = .ok (.drwVxVyN 15 15 15, [0x00#8]) := by decide

/-- For EncodeOfDecodeIsTheWord and UnknownOpcodesAreThoseListed: a word that decodes and one that does not. -/
theorem witness_decode :
    decode 0xDFFF#16 = .ok (.drwVxVyN 15 15 15) ∧ decode 0x0000#16 = .error (.unknownOpcode 0x0000#16) := by decide

/-- For EngineStepsExactlyWhenActive: a state in each run state. -/
theorem witness_run_states :
    State.reset.run = .running ∧ waiting.run = .waitKey ∧ { State.reset with run := .halted }.run = .halted ∧
      { State.reset with run := .stopped }.run = .stopped := by decide

/-- `LD V0, 1` at an address. -/
def oneWordAt (a : Word) : State := withBytes { State.reset with pc := a } a.toNat [0x60#8, 0x01#8]

/-- For EngineTurnIsTheEngineStep: no turn listed, and the engine's turn listed before another, where it is no instruction
that the step runs but a fetch fault or a wait step. -/
theorem witness_EngineTurnIsTheEngineStep :
    State.reset.schedule = [] ∧
    { State.reset with pc := 0x1000#16, schedule := [.engine, .tick] }.schedule = .engine :: [.tick] ∧
    { waiting with schedule := [.engine] }.schedule = .engine :: [] := by decide

/-- F3, and K8, on the engine's listed turn. -/
theorem test_engine_turn :
    (nextOf (step { State.reset with pc := 0x201#16, schedule := [.engine, .tick] })).map
      (fun t => (record t, t.schedule)) = some ((.halted, .invalidAddress, 0x201#16, 0x201#16), [.tick]) ∧
    (nextOf (step { waiting with keys := 0x0208#16, schedule := [.engine] })).map
      (fun t => (t.reg 2, t.run, t.schedule)) = some (0x03#8, .running, []) := by decide

/-- For StepRunsTheDecodedInstruction, at the lowest and the highest address, and with the engine's turn listed. -/
theorem witness_StepRunsTheDecodedInstruction :
    ((oneWordAt 0x000#16).run = .running ∧ (oneWordAt 0x000#16).pc.toNat % 2 = 0 ∧
      decode (oneWordAt 0x000#16).fetchWord = .ok (.ldVxKk 0 0x01#8) ∧ (oneWordAt 0x000#16).schedule = []) ∧
    ((oneWordAt 0xFFE#16).run = .running ∧ (oneWordAt 0xFFE#16).pc.toNat % 2 = 0 ∧
      (oneWordAt 0xFFE#16).pc.toNat ≤ 0xFFE ∧ decode (oneWordAt 0xFFE#16).fetchWord = .ok (.ldVxKk 0 0x01#8)) ∧
    { oneWordAt 0xFFE#16 with schedule := [.engine, .tick] }.schedule = .engine :: [.tick] := by decide

/-- For DecodedWordRunsOrFaults: a word that matches no row, and one that matches a row. -/
theorem witness_DecodedWordRunsOrFaults :
    (State.reset.pc.toNat % 2 = 0 ∧ State.reset.pc.toNat ≤ 0xFFE ∧
      opcodeTable.all (fun r => !r.matchesWord State.reset.fetchWord) = true) ∧
    ((oneWordAt 0xFFE#16).pc.toNat ≤ 0xFFE ∧ opcodeTable.contains (Instr.row (.ldVxKk 0 0#8)) = true ∧
      (Instr.row (.ldVxKk 0 0#8)).matchesWord (oneWordAt 0xFFE#16).fetchWord = true) := by decide

/-- For BadPcFaultsAtFetch: an odd `PC` below the bound, and the first one above it. -/
theorem witness_BadPcFaultsAtFetch :
    ({ State.reset with pc := 0xFFD#16 }.run = .running ∧ { State.reset with pc := 0xFFD#16 }.schedule = []) ∧
      { State.reset with pc := 0xFFD#16 }.pc.toNat % 2 = 1 ∧ 0xFFE < { State.reset with pc := 0x1000#16 }.pc.toNat := by
  decide

/-- For AddSetsCarry, SubtractSetsNotBorrow, ReverseSubtractSetsNotBorrow and ShiftsSetTheBitShiftedOut: a destination
that is not the flag register. -/
theorem witness_destination : (14 : Reg) ≠ regF := by decide

/-- A state with a number of calls outstanding. -/
def withSp (k : Fin 17) : State := { State.reset with sp := k }

/-- For CallPushesAndJumps and ReturnPopsIntoPc: the first and the last slot, the stack full and empty, and an odd
target. -/
theorem witness_stack_pointer :
    (withSp 0).sp.val < 16 ∧ (withSp 15).sp.val < 16 ∧ (withSp 16).sp.val = 16 ∧ 0 < (withSp 1).sp.val ∧
      0 < (withSp 16).sp.val ∧ (withSp 0).sp.val = 0 ∧ (0xFFF#12).toNat % 2 = 1 := by decide

/-- For ReturnUndoesCall: the call into the last slot completes. -/
theorem witness_ReturnUndoesCall : (withSp 15).sp.val < 16 ∧
    ∃ t, exec (.callNnn 0x300#12) (withSp 15) = .next t ∧ t.sp = 16 := ⟨by decide, _, rfl, by decide⟩

/-- A state with an address in `I`. -/
def withI (a : Word) : State := { State.reset with i := a }

/-- For AddIndexStaysInMemory: the highest sum that stays, and the lowest that does not. -/
theorem witness_AddIndexStaysInMemory :
    { withRegs [(0, 0x0F#8)] with i := 0xFF0#16 }.i.toNat +
      ({ withRegs [(0, 0x0F#8)] with i := 0xFF0#16 }.reg 0).toNat ≤ 0xFFF ∧
    0xFFF < { withRegs [(0, 0x10#8)] with i := 0xFF0#16 }.i.toNat +
      ({ withRegs [(0, 0x10#8)] with i := 0xFF0#16 }.reg 0).toNat := by decide

/-- For BcdStoresThreeDigits, BlockStoreWritesRegisters and BlockLoadReadsRegisters: the lowest and the highest ranges
that can be transferred, of one byte and of 16. -/
theorem witness_transfers :
    (0x200 ≤ (withI 0x200#16).i.toNat ∧ (withI 0x200#16).i.toNat + 2 ≤ 0xFFF) ∧
    (0x200 ≤ (withI 0xFFD#16).i.toNat ∧ (withI 0xFFD#16).i.toNat + 2 ≤ 0xFFF) ∧
    (withI 0x200#16).i.toNat + (15 : Reg).val ≤ 0xFFF ∧ (withI 0xFF0#16).i.toNat + (15 : Reg).val ≤ 0xFFF ∧
    (withI 0xFFF#16).i.toNat + (0 : Reg).val ≤ 0xFFF ∧ (withI 0x000#16).i.toNat + (15 : Reg).val ≤ 0xFFF := by decide

/-- For TransferFaultsOnLowestAddress: a range that begins in the reserved region, one that leaves memory on its last
byte, and one that begins outside it. -/
theorem witness_TransferFaultsOnLowestAddress :
    IsLowest UnwritableAddress (withI 0x1FF#16).i.toNat 3 0x1FF ∧
    IsLowest UnwritableAddress (withI 0xFFE#16).i.toNat 3 0x1000 ∧
    IsLowest UnwritableAddress (withI 0xFF1#16).i.toNat ((15 : Reg).val + 1) 0x1000 ∧
    IsLowest UnreadableAddress (withI 0xFF1#16).i.toNat ((15 : Reg).val + 1) 0x1000 ∧
    IsLowest UnreadableAddress (withI 0xFFE#16).i.toNat 5 0x1000 ∧
    IsLowest UnreadableAddress (withI 0xFFFF#16).i.toNat 1 0xFFFF := by
  refine ⟨?_, ?_, ?_, ?_, ?_, ?_⟩ <;> refine ⟨?_, ?_, ?_, ?_⟩ <;>
    simp only [withI, UnwritableAddress, UnreadableAddress, BitVec.toNat_ofNat] <;> omega

/-- For StoredBytesAreFetched: `F155` at 0x200 stores at 0x202, where the next instruction stands. -/
theorem witness_StoredBytesAreFetched :
    0x200 ≤ (withI 0x202#16).i.toNat ∧ (withI 0x202#16).i.toNat + (1 : Reg).val ≤ 0xFFF ∧
    ∃ t, exec (.ldMemVx 1) (withI 0x202#16) = .next t ∧ (1 : Reg) ≤ 1 ∧ (1 : Reg).val = (0 : Reg).val + 1 ∧
      t.pc.toNat = (withI 0x202#16).i.toNat + (0 : Reg).val :=
  ⟨by decide, by decide, _, rfl, by decide, by decide, by decide⟩

/-- A state with one sprite row, all its bits set, and the pixel `(0, 0)` set where `c` says so. -/
def sprite (c : Bool) : State :=
  withBytes { withI 0xFFF#16 with fb := if c then blankScreen.set 0 0x1#64 else blankScreen } 0xFFF [0xFF#8]

/-- For DrawFlipsTheSpritesPixels: the highest count of rows, at the end of memory; a set pixel under a sprite, and a
pixel beside it; and a sprite of no row, which covers none. -/
theorem witness_DrawFlipsTheSpritesPixels :
    (15 < 16 ∧ (withI 0xFF1#16).i.toNat + 15 ≤ 0x1000) ∧
    (SpriteCovers (sprite true) 0 0 1 0 0 ∧ pixel (sprite true).fb 0 0 = true) ∧
    ¬ SpriteCovers (sprite true) 0 0 1 0 1 ∧
    ¬ ∃ px py, SpriteCovers (sprite true) 0 0 0 px py ∧ pixel (sprite true).fb px py = true := by
  refine ⟨by decide, ⟨⟨0, 0, by decide⟩, by decide⟩, ?_, ?_⟩
  · rintro ⟨r, k, hr, -, -, -, hy⟩
    obtain rfl : r = 0 := by omega
    exact absurd hy (by decide)
  · rintro ⟨_, _, ⟨r, k, hr, -⟩, -⟩
    omega

/-- For DrawingTwiceRestoresTheScreen: a draw at coordinates that are not in the flag register completes. -/
theorem witness_DrawingTwiceRestoresTheScreen :
    (1 < 16 ∧ (sprite false).i.toNat + 1 ≤ 0x1000) ∧ (0 : Reg) ≠ regF ∧
    ∃ t, exec (.drwVxVyN 0 0 1) (sprite false) = .next t ∧ t.reg regF = 0#8 :=
  ⟨by decide, by decide, _, rfl, by decide⟩

/-- For TickCountsBothTimersDown and TicksReachZeroAndStay, in each run state. -/
theorem witness_ticks :
    { State.reset with schedule := [.tick] }.schedule = .tick :: [] ∧ State.reset.run = .running ∧
      waiting.run = .waitKey ∧ { State.reset with run := .halted }.run = .halted ∧
      { State.reset with run := .stopped }.run = .stopped := by decide

/-- For WaitStepTakesTheLowestNewKey: the lowest of two new keys, above a held one; and no new key. -/
theorem witness_WaitStepTakesTheLowestNewKey :
    (waiting.run = .waitKey ∧ waiting.schedule = []) ∧
    (0x8009#16).getLsbD (3 : Fin 16).val = true ∧ (0x0001#16).getLsbD (3 : Fin 16).val = false ∧
    (∀ j : Fin 16, j < 3 → (0x8009#16).getLsbD j.val = true → (0x0001#16).getLsbD j.val = true) ∧
    (∀ j : Fin 16, (0x0001#16).getLsbD j.val = true → (0x0001#16).getLsbD j.val = true) := by decide

/-- For WaitEndsOnlyByKeyOrHost: a wait that a key ends, one that `cancel` ends, and one that a launch ends. -/
theorem witness_WaitEndsOnlyByKeyOrHost :
    (nextOf (step { waiting with keys := 0x8000#16 })).map (fun t => decide (t.run ≠ .waitKey)) = some true ∧
    (nextOf (step { waiting with schedule := [.cancel] })).map (fun t => decide (t.run ≠ .waitKey)) = some true ∧
    (nextOf (step { waiting with schedule := [.launch []] })).map (fun t => decide (t.run ≠ .waitKey)) =
      some true := by decide

/-- For FaultIsPrecise: an engine that runs and halts, at the fetch, at the decode and at the instruction. -/
theorem witness_FaultIsPrecise :
    ∀ s ∈ [{ State.reset with pc := 0x1000#16 }, State.reset, withBytes State.reset 0x200 [0x00#8, 0xEE#8]],
      s.run = .running ∧ (nextOf (engineStep s)).map (fun t => t.run) = some .halted := by decide

/-- For InstructionsRaiseOnlyTheirOwnFault: an instruction that raises each of the three kinds. -/
theorem witness_InstructionsRaiseOnlyTheirOwnFault :
    (nextOf (exec (.callNnn 0x300#12) { State.reset with sp := 16 })).map (fun t => t.run) = some .halted ∧
    (nextOf (exec .ret State.reset)).map (fun t => t.run) = some .halted ∧
    (nextOf (exec (.ldBVx 0) State.reset)).map (fun t => t.run) = some .halted := by decide

/-- For FinalStatesStayUntilLaunch: a tick, a key write and a launch in each final state. -/
theorem witness_FinalStatesStayUntilLaunch :
    ∀ r ∈ [RunState.halted, .stopped], ∀ e ∈ [Event.tick, .setKey 7 true, .cancel, .launch []],
      ({ State.reset with run := r, schedule := [e] }.run = .halted ∨
        { State.reset with run := r, schedule := [e] }.run = .stopped) ∧
      (nextOf (step { State.reset with run := r, schedule := [e] })).isSome = true := by decide

/-- For CancelStopsAnActiveEngine, KeyWriteSetsOneBit and LaunchLoadsTheRom: a schedule of each event, and the lengths
of a ROM at its bound. -/
theorem witness_events :
    { State.reset with schedule := [.cancel] }.schedule = .cancel :: [] ∧
    { State.reset with schedule := [.setKey 15 true] }.schedule = .setKey 15 true :: [] ∧
    (List.replicate 3584 0xFF#8).length ≤ 3584 ∧ 3584 < (List.replicate 3585 0xFF#8).length ∧
    { State.reset with schedule := [.launch (List.replicate 3584 0xFF#8)] }.schedule =
      .launch (List.replicate 3584 0xFF#8) :: [] :=
  ⟨rfl, rfl, by rw [List.length_replicate], by rw [List.length_replicate]; omega, rfl⟩

/-- For OnlyTheHostWritesKeys: a key write and a launch that change the keypad. -/
theorem witness_OnlyTheHostWritesKeys :
    (nextOf (step { State.reset with schedule := [.setKey 15 true] })).map (fun t => decide (t.keys ≠ 0#16)) =
      some true ∧
    (nextOf (step { State.reset with keys := 1#16, schedule := [.launch []] })).map
      (fun t => decide (t.keys ≠ 1#16)) = some true := by decide

/-- For OnlyTheNamedInstructionsWrite: an instruction that changes each of the parts of the state. -/
theorem witness_OnlyTheNamedInstructionsWrite :
    (nextOf (exec (.ldVxKk 0 1#8) State.reset)).map (fun t => decide (t.reg 0 ≠ State.reset.reg 0)) = some true ∧
    (nextOf (exec (.ldINnn 1#12) State.reset)).map (fun t => decide (t.i ≠ State.reset.i)) = some true ∧
    (nextOf (exec (.callNnn 0#12) State.reset)).map
      (fun t => decide (t.sp ≠ State.reset.sp ∧ t.stack ≠ State.reset.stack)) = some true ∧
    (nextOf (exec (.ldDtVx 0) (withRegs [(0, 1#8)]))).map (fun t => decide (t.dt ≠ 0#8)) = some true ∧
    (nextOf (exec (.ldStVx 0) (withRegs [(0, 1#8)]))).map (fun t => decide (t.st ≠ 0#8)) = some true ∧
    (nextOf (exec (.ldMemVx 0) { withRegs [(0, 1#8)] with i := 0x300#16 })).map
      (fun t => decide (t.mem.read 0x300 ≠ State.reset.mem.read 0x300)) = some true ∧
    (nextOf (exec .cls State.reset)).map (fun t => decide (t.frameSeq ≠ 0)) = some true ∧
    (nextOf (exec (.ldVxK 1) State.reset)).map (fun t => decide (t.waitX ≠ 0 ∧ t.run = .waitKey)) = some true ∧
    (nextOf (rndWith 0#8 0 0#8 State.reset)).map (fun t => decide (t.draws ≠ 0)) = some true := by decide

/-- For EveryStepKeepsTheInvariant: a machine that waits at its `Fx0A` meets the invariant and has a step. -/
theorem witness_EveryStepKeepsTheInvariant : MachineInvariant waiting ∧ ∃ t, step waiting = .next t where
  left := {
    memoryCanonical := by decide
    reservedIntact := fun a ha => read_writeBytes_outside _ _ (.inl (by show a < 0x20A; omega))
    indexInRange := by decide
    pcBounded := by decide
    stackEven := by decide
    haltedIffFault := by decide
    noFaultNoInfo := fun _ => rfl
    waitingAtKeyInstruction := by decide }
  right := ⟨_, rfl⟩

/-- For OutputsAreNotObservable: two states that differ in the sound timer and the frame counter. -/
theorem witness_OutputsAreNotObservable :
    { State.reset with st := 1#8, frameSeq := 2 } =
      { State.reset with st := { State.reset with st := 1#8, frameSeq := 2 }.st,
                         frameSeq := { State.reset with st := 1#8, frameSeq := 2 }.frameSeq } ∧
    { State.reset with st := 1#8, frameSeq := 2 } ≠ State.reset := by decide

/-- For StaleSlotsAreNotObservable: two states that differ in a slot that is not occupied, above one that is. -/
theorem witness_StaleSlotsAreNotObservable :
    SameButStaleSlots { State.reset with sp := 1 }
      { State.reset with sp := 1, stack := State.reset.stack.set 1 0x206#16 } ∧
    State.reset.stack.set 1 0x206#16 ≠ State.reset.stack := ⟨⟨rfl, by decide⟩, by decide⟩

end Sys2Proof.Tests
end

section
/-! PROOFS. The decoder and the encoder undo each other, on words and then on bytes (R51 to R57, R39). -/

namespace Sys2Proof

/-! ### Decoding an encoded instruction -/

/-- A well-formed instruction's class, and its subcode where the class has one, lead the decoder to its own row. -/
theorem decode_encode {i : Instr} (hwf : i.wellFormed = true) : decode (encode i) = .ok i := by
  cases i with
  | cls | ret => rfl
  | jpNnn nnn | callNnn nnn | ldINnn nnn | jpV0Nnn nnn => simp [encode, decode]
  | seVxKk x kk | sneVxKk x kk | ldVxKk x kk | addVxKk x kk | rndVxKk x kk => simp [encode, decode]
  | seVxVy x y => simp [encode, decode, decode5]
  | ldVxVy x y | orVxVy x y | andVxVy x y | xorVxVy x y | addVxVy x y | subVxVy x y | shrVxVy x y
  | subnVxVy x y | shlVxVy x y => simp [encode, decode, decode8]
  | sneVxVy x y => simp [encode, decode, decode9]
  | drwVxVyN x y n =>
    have hn : n < 16 := of_decide_eq_true hwf
    simp [encode, decode, Nat.mod_eq_of_lt hn]
  | skpVx x | sknpVx x => simp [encode, decode, decodeE]
  | ldVxDt x | ldVxK x | ldDtVx x | ldStVx x | addIVx x | ldFVx x | ldBVx x | ldMemVx x | ldVxMem x =>
    simp [encode, decode, decodeF]

/-! ### Encoding a decoded word, class by class -/

theorem encode_of_decode0 {w : Word} {i : Instr} (h : decode0 w = .ok i) :
    encode i = w ∧ i.wellFormed = true := by
  unfold decode0 at h
  split at h <;> cases h <;> exact ⟨rfl, rfl⟩

theorem encode_of_decode5 {w : Word} {i : Instr} (hc : classOf w = 0x5#4) (h : decode5 w = .ok i) :
    encode i = w ∧ i.wellFormed = true := by
  unfold decode5 at h
  split at h <;> cases h
  next hn => exact ⟨formatXyn_of_subcode hc hn, rfl⟩

theorem encode_of_decode8 {w : Word} {i : Instr} (hc : classOf w = 0x8#4) (h : decode8 w = .ok i) :
    encode i = w ∧ i.wellFormed = true := by
  unfold decode8 at h
  split at h <;> cases h <;> exact ⟨formatXyn_of_subcode hc ‹_›, rfl⟩

theorem encode_of_decode9 {w : Word} {i : Instr} (hc : classOf w = 0x9#4) (h : decode9 w = .ok i) :
    encode i = w ∧ i.wellFormed = true := by
  unfold decode9 at h
  split at h <;> cases h
  next hn => exact ⟨formatXyn_of_subcode hc hn, rfl⟩

theorem encode_of_decodeE {w : Word} {i : Instr} (hc : classOf w = 0xE#4) (h : decodeE w = .ok i) :
    encode i = w ∧ i.wellFormed = true := by
  unfold decodeE at h
  split at h <;> cases h <;> exact ⟨formatXkk_of_subcode hc ‹_›, rfl⟩

theorem encode_of_decodeF {w : Word} {i : Instr} (hc : classOf w = 0xF#4) (h : decodeF w = .ok i) :
    encode i = w ∧ i.wellFormed = true := by
  unfold decodeF at h
  split at h <;> cases h <;> exact ⟨formatXkk_of_subcode hc ‹_›, rfl⟩

/-- Class `0xD`: the count of rows is a 4-bit field, so it encodes to itself and is below 16 (R54). -/
theorem encode_drwVxVyN_of_class {w : Word} (hc : classOf w = 0xD#4) :
    encode (.drwVxVyN (xOf w) (yOf w) (nOf w).toNat) = w ∧
      Instr.wellFormed (.drwVxVyN (xOf w) (yOf w) (nOf w).toNat) = true := by
  refine ⟨?_, decide_eq_true (nOf w).isLt⟩
  rw [encode, BitVec.ofNat_toNat, BitVec.setWidth_eq]
  exact formatXyn_of_class hc

/-- No bit of a word that decodes is lost: the word is read back from its instruction, which is well-formed (R57).
The classes are grouped by their format (R53); the last case, a class that is none of the sixteen, rejects. -/
theorem encode_of_decode {w : Word} {i : Instr} (h : decode w = .ok i) : encode i = w ∧ i.wellFormed = true := by
  unfold decode at h
  split at h
  case h_1 => exact encode_of_decode0 h
  case h_2 hc | h_3 hc | h_11 hc | h_12 hc => cases h; exact ⟨formatNnn_of_class hc, rfl⟩
  case h_4 hc | h_5 hc | h_7 hc | h_8 hc | h_13 hc => cases h; exact ⟨formatXkk_of_class hc, rfl⟩
  case h_6 hc => exact encode_of_decode5 hc h
  case h_9 hc => exact encode_of_decode8 hc h
  case h_10 hc => exact encode_of_decode9 hc h
  case h_14 hc => cases h; exact encode_drwVxVyN_of_class hc
  case h_15 hc => exact encode_of_decodeE hc h
  case h_16 hc => exact encode_of_decodeF hc h
  case h_17 => cases h

/-! ### Bytes (R51) -/

theorem decodeBytes_of_decode {hi lo : Byte} {i : Instr} (h : decode (wordOfBytes hi lo) = .ok i)
    (rest : List Byte) : decodeBytes (hi :: lo :: rest) = .ok (i, rest) := by
  simp [decodeBytes, h]

/-- Bytes decode only if they are two bytes whose word decodes, and what is left is what follows the two. -/
theorem decode_of_decodeBytes {bs rest : List Byte} {i : Instr} (h : decodeBytes bs = .ok (i, rest)) :
    ∃ hi lo, bs = hi :: lo :: rest ∧ decode (wordOfBytes hi lo) = .ok i := by
  match bs with
  | [] => cases h
  | [_] => cases h
  | hi :: lo :: tail =>
    rw [decodeBytes] at h
    split at h <;> cases h
    next hd => exact ⟨hi, lo, rfl, hd⟩

theorem decodeBytes_bytesOfWord_append {w : Word} {i : Instr} (h : decode w = .ok i) (rest : List Byte) :
    decodeBytes (bytesOfWord w ++ rest) = .ok (i, rest) :=
  decodeBytes_of_decode (by rwa [wordOfBytes_bytesOfWord]) rest

theorem eq_bytesOfWord_append_of_decodeBytes {bs rest : List Byte} {i : Instr}
    (h : decodeBytes bs = .ok (i, rest)) : bs = bytesOfWord (encode i) ++ rest ∧ i.wellFormed = true := by
  obtain ⟨hi, lo, rfl, hd⟩ := decode_of_decodeBytes h
  obtain ⟨hw, hwf⟩ := encode_of_decode hd
  rw [hw, bytesOfWord_wordOfBytes]
  exact ⟨rfl, hwf⟩

/-- Settles O6: the fetched word is that of its two bytes by place value, and on bytes the decoder and the encoder undo
each other, whatever follows the two bytes. -/
theorem instructionIsTwoBytesBigEndian : Obligations.InstructionIsTwoBytesBigEndian :=
  ⟨fun _ => wordOfBytes_toNat _ _,
    fun _ rest hwf => decodeBytes_bytesOfWord_append (decode_encode hwf) rest,
    fun _ _ _ h => eq_bytesOfWord_append_of_decodeBytes h⟩

end Sys2Proof
end

section
/-! PROOFS. The dispatch of a fetched word by the row it matches, and which step the engine has (R57, R58, R63, R65). -/

namespace Sys2Proof

open Machine

/-! ### Rows and the instructions they stand for (R57) -/

theorem row_mem_opcodeTable (i : Instr) : i.row ∈ opcodeTable := by
  cases i <;> simp [opcodeTable, oneOfEachRow, Instr.row]

theorem row_matchesWord_encode (i : Instr) : i.row.matchesWord (encode i) = true := by
  cases i with
  | cls => exact Laws.EncodeRow.cls
  | ret => exact Laws.EncodeRow.ret
  | jpNnn nnn => exact Laws.EncodeRow.jpNnn nnn
  | callNnn nnn => exact Laws.EncodeRow.callNnn nnn
  | seVxKk x kk => exact Laws.EncodeRow.seVxKk x kk
  | sneVxKk x kk => exact Laws.EncodeRow.sneVxKk x kk
  | seVxVy x y => exact Laws.EncodeRow.seVxVy x y
  | ldVxKk x kk => exact Laws.EncodeRow.ldVxKk x kk
  | addVxKk x kk => exact Laws.EncodeRow.addVxKk x kk
  | ldVxVy x y => exact Laws.EncodeRow.ldVxVy x y
  | orVxVy x y => exact Laws.EncodeRow.orVxVy x y
  | andVxVy x y => exact Laws.EncodeRow.andVxVy x y
  | xorVxVy x y => exact Laws.EncodeRow.xorVxVy x y
  | addVxVy x y => exact Laws.EncodeRow.addVxVy x y
  | subVxVy x y => exact Laws.EncodeRow.subVxVy x y
  | shrVxVy x y => exact Laws.EncodeRow.shrVxVy x y
  | subnVxVy x y => exact Laws.EncodeRow.subnVxVy x y
  | shlVxVy x y => exact Laws.EncodeRow.shlVxVy x y
  | sneVxVy x y => exact Laws.EncodeRow.sneVxVy x y
  | ldINnn nnn => exact Laws.EncodeRow.ldINnn nnn
  | jpV0Nnn nnn => exact Laws.EncodeRow.jpV0Nnn nnn
  | rndVxKk x kk => exact Laws.EncodeRow.rndVxKk x kk
  | drwVxVyN x y n => exact Laws.EncodeRow.drwVxVyN x y n
  | skpVx x => exact Laws.EncodeRow.skpVx x
  | sknpVx x => exact Laws.EncodeRow.sknpVx x
  | ldVxDt x => exact Laws.EncodeRow.ldVxDt x
  | ldVxK x => exact Laws.EncodeRow.ldVxK x
  | ldDtVx x => exact Laws.EncodeRow.ldDtVx x
  | ldStVx x => exact Laws.EncodeRow.ldStVx x
  | addIVx x => exact Laws.EncodeRow.addIVx x
  | ldFVx x => exact Laws.EncodeRow.ldFVx x
  | ldBVx x => exact Laws.EncodeRow.ldBVx x
  | ldMemVx x => exact Laws.EncodeRow.ldMemVx x
  | ldVxMem x => exact Laws.EncodeRow.ldVxMem x

theorem row_matchesWord_of_decode {w : Word} {i : Instr} (h : decode w = .ok i) : i.row.matchesWord w = true :=
  (encode_of_decode h).1 ▸ row_matchesWord_encode i

/-! ### What a matching word shares with its row: each field that the row's mask keeps whole -/

section
variable {v m w : Word}

theorem and_eq_of_matchesWord (h : OpcodeRow.matchesWord ⟨v, m⟩ w = true) : w &&& m = v := eq_of_beq h

/-- A run of bits that the mask keeps whole is the row's; the fields below are such runs (R52). -/
theorem extractLsb'_of_matchesWord {start len : Nat} (h : OpcodeRow.matchesWord ⟨v, m⟩ w = true)
    (hm : m.extractLsb' start len = BitVec.allOnes len) : w.extractLsb' start len = v.extractLsb' start len := by
  rw [← and_eq_of_matchesWord h, BitVec.extractLsb'_and, hm, BitVec.and_allOnes]

theorem classOf_of_matchesWord (h : OpcodeRow.matchesWord ⟨v, m⟩ w = true) (hm : classOf m = BitVec.allOnes 4) :
    classOf w = v.extractLsb' 12 4 :=
  extractLsb'_of_matchesWord h hm

theorem nOf_of_matchesWord (h : OpcodeRow.matchesWord ⟨v, m⟩ w = true) (hm : nOf m = BitVec.allOnes 4) :
    nOf w = v.extractLsb' 0 4 :=
  extractLsb'_of_matchesWord h hm

theorem kkOf_of_matchesWord (h : OpcodeRow.matchesWord ⟨v, m⟩ w = true) (hm : kkOf m = BitVec.allOnes 8) :
    kkOf w = v.extractLsb' 0 8 :=
  extractLsb'_of_matchesWord h hm

theorem eq_value_of_matchesWord (h : OpcodeRow.matchesWord ⟨v, BitVec.allOnes 16⟩ w = true) : w = v := by
  rw [← and_eq_of_matchesWord h, BitVec.and_allOnes]

end

/-- A word that matches the row of some instruction decodes to an instruction of that row. The rows are grouped by what
their mask keeps: the whole word, the class alone, or the class and a subcode (R56, R57). -/
theorem decode_of_row_matchesWord {j : Instr} {w : Word} (h : j.row.matchesWord w = true) :
    ∃ i, decode w = .ok i ∧ i.row = j.row := by
  cases j with
  | cls | ret => cases eq_value_of_matchesWord h; exact ⟨_, rfl, rfl⟩
  | jpNnn | callNnn | seVxKk | sneVxKk | ldVxKk | addVxKk | ldINnn | jpV0Nnn | rndVxKk | drwVxVyN =>
    have hc := classOf_of_matchesWord h (by decide)
    simp [decode, hc, Instr.row]
  | seVxVy | ldVxVy | orVxVy | andVxVy | xorVxVy | addVxVy | subVxVy | shrVxVy | subnVxVy | shlVxVy | sneVxVy =>
    have hc := classOf_of_matchesWord h (by decide)
    have hn := nOf_of_matchesWord h (by decide)
    simp [decode, decode5, decode8, decode9, hc, hn, Instr.row]
  | skpVx | sknpVx | ldVxDt | ldVxK | ldDtVx | ldStVx | addIVx | ldFVx | ldBVx | ldMemVx | ldVxMem =>
    have hc := classOf_of_matchesWord h (by decide)
    have hkk := kkOf_of_matchesWord h (by decide)
    simp [decode, decodeE, decodeF, hc, hkk, Instr.row]

theorem decode_of_mem_opcodeTable {r : OpcodeRow} {w : Word} (hr : r ∈ opcodeTable) (h : r.matchesWord w = true) :
    ∃ i, decode w = .ok i ∧ i.row = r := by
  obtain ⟨j, -, rfl⟩ := List.mem_map.1 hr
  exact decode_of_row_matchesWord h

/-! ### Dispatch -/

/-- The decoder rejects a word that matches no row, so the instruction step enters the fault with that word. -/
theorem runInstruction_of_no_row {s : State} (hp : fetchable s.pc = true)
    (hno : ∀ r ∈ opcodeTable, r.matchesWord s.fetchWord = false) :
    runInstruction s = .next (s.enterFault .unknownOpcode s.fetchWord) := by
  rcases runInstruction_cases s with ⟨hp', -⟩ | ⟨_, -, -, hrun⟩ | ⟨i, -, hd, -⟩
  · exact absurd hp (by simp [hp'])
  · exact hrun
  · exact absurd (row_matchesWord_of_decode hd) (by simp [hno _ (row_mem_opcodeTable i)])

/-- Settles O10: a word that decodes matches its instruction's row, and a word that matches a row decodes to an
instruction of that row, whose encoding it is. -/
theorem decodedWordRunsOrFaults : Obligations.DecodedWordRunsOrFaults := by
  intro s heven hle
  have hp : fetchable s.pc = true := fetchable_iff.2 ⟨heven, hle⟩
  refine ⟨runInstruction_of_no_row hp, fun r hr hmatch => ?_⟩
  obtain ⟨i, hd, hrow⟩ := decode_of_mem_opcodeTable hr hmatch
  obtain ⟨hw, hwf⟩ := encode_of_decode hd
  exact ⟨i, hrow, hwf, hw, runInstruction_of_decode hp hd⟩

/-! ### The engine's step in each run state (R63) -/

theorem engineStep_halted {s : State} (h : s.run = .halted) : engineStep s = .fault .engineHalted := by
  simp only [engineStep, h]

theorem engineStep_stopped {s : State} (h : s.run = .stopped) : engineStep s = .fault .engineStopped := by
  simp only [engineStep, h]

/-- An instruction step answers a next state, whether it faults at the fetch or at the decode or runs an instruction. -/
theorem runInstruction_answers (s : State) : ∃ t, runInstruction s = .next t := by
  rcases runInstruction_cases s with ⟨-, h⟩ | ⟨_, -, -, h⟩ | ⟨i, -, -, h⟩
  · exact ⟨_, h⟩
  · exact ⟨_, h⟩
  · exact h ▸ exec_answers i s

theorem engineStep_answers_iff (s : State) :
    (∃ t, engineStep s = .next t) ↔ s.run = .running ∨ s.run = .waitKey := by
  cases h : s.run with
  | running => simpa [engineStep_running h] using runInstruction_answers s
  | waitKey => simp [engineStep_waitKey h]
  | halted => simp [engineStep_halted h]
  | stopped => simp [engineStep_stopped h]

/-- Settles O8, by the four run states: the instruction step and the keypad sample answer a next state, the two faults
do not. -/
theorem engineStepsExactlyWhenActive : Obligations.EngineStepsExactlyWhenActive := fun s =>
  ⟨engineStep_answers_iff s, engineStep_running, engineStep_waitKey, engineStep_halted, engineStep_stopped⟩

end Sys2Proof
end

section
/-! PROOFS. The instructions that write one general register and continue: the write has its value, and everything but
that register and `PC` is as before (R66, R70). -/

namespace Sys2Proof

open Machine

/-- Writing a register and continuing changes no other register, and no part of the state but `PC` besides. -/
theorem writesOnly_setReg_continue (s : State) (x : Reg) (b : Byte) :
    WritesOnly x s ((s.setReg x b).complete .continue) := by
  refine ⟨rfl, fun r hr => ?_, fun _ => rfl, rfl⟩
  rw [complete_reg, reg_setReg_other s b hr]

/-- The one effect of an instruction whose whole pseudocode is `V[x] <- b`; return `Continue`. -/
theorem answers_writeReg (s : State) (x : Reg) (b : Byte) :
    Answers (writeReg s x b) fun t => t.reg x = b ∧ WritesOnly x s t := by
  rw [writeReg_eq, answers_next, complete_reg, reg_setReg_same]
  exact ⟨rfl, writesOnly_setReg_continue s x b⟩

theorem exec_ldVxKk (x : Reg) (kk : Byte) (s : State) : exec (.ldVxKk x kk) s = writeReg s x kk := rfl

/-- The word of `6xkk` by place value: class 6, then the fields `x` and `kk` (R53). -/
theorem encode_ldVxKk_toNat (x : Reg) (kk : Byte) :
    (encode (.ldVxKk x kk)).toNat = 0x6000 + 256 * x.val + kk.toNat := by
  have hclass : (0x6#4).toNat = 6 := rfl
  rw [encode, formatXkk_toNat, hclass]
  omega

/-- Settles O13: the word is the format `xkk` of class 6, and the effect is one register write. -/
theorem loadImmediateWritesVx : Obligations.LoadImmediateWritesVx := fun x kk s =>
  ⟨encode_ldVxKk_toNat x kk, exec_ldVxKk x kk s ▸ answers_writeReg s x kk⟩

end Sys2Proof
end

section
/-! PROOFS. The subroutine call and return: the push and the pop each have a state they answer, and outside the bounds
of the stack each faults and writes nothing else (R86, R87). -/

namespace Sys2Proof

open Machine

/-! ### Targets -/

@[simp] theorem addressOf_toNat (nnn : BitVec 12) : (addressOf nnn).toNat = nnn.toNat :=
  BitVec.toNat_setWidth_of_le (by decide)

/-- With an odd `PC` there is no fetch: the instruction step faults with that `PC` and runs nothing (R64). -/
theorem runInstruction_of_odd_pc {s : State} (hodd : s.pc.toNat % 2 = 1) :
    runInstruction s = .next (s.enterFault .invalidAddress s.pc) := by
  have hp : ¬fetchable s.pc = true := fun h => absurd (fetchable_iff.1 h).1 (by omega)
  rcases runInstruction_cases s with ⟨-, hrun⟩ | ⟨_, hp', -⟩ | ⟨_, hp', -⟩
  · exact hrun
  · exact absurd hp' hp
  · exact absurd hp' hp

/-! ### The call (R86) -/

/-- The state a call to an address answers: the address after the call in slot `SP`, one call more outstanding, and
the target in `PC`. -/
def afterCall (s : State) (target : Word) (h : s.sp.val < 16) : State :=
  { s with stack := s.stack.set s.sp.val s.returnAddress h, sp := ⟨s.sp.val + 1, Nat.succ_lt_succ h⟩, pc := target }

theorem exec_callNnn_of_room (nnn : BitVec 12) {s : State} (h : s.sp.val < 16) :
    exec (.callNnn nnn) s = .next (afterCall s (addressOf nnn) h) := dif_pos h

theorem exec_callNnn_of_full (nnn : BitVec 12) {s : State} (h : s.sp.val = 16) :
    exec (.callNnn nnn) s = .next (s.enterFault .stackOverflow (encode (.callNnn nnn))) := dif_neg (by omega)

theorem afterCall_stack_top {s : State} (target : Word) (h : s.sp.val < 16) :
    (afterCall s target h).stack[s.sp.val]? = some (s.pc + 2) :=
  Vector.getElem?_set_self h

theorem afterCall_stack_other {s : State} (target : Word) (h : s.sp.val < 16) {j : Fin 16} (hj : j.val ≠ s.sp.val) :
    (afterCall s target h).stack[j] = s.stack[j] :=
  Vector.getElem_set_ne h j.isLt hj.symm

@[simp] theorem afterCall_pc (s : State) (target : Word) (h : s.sp.val < 16) : (afterCall s target h).pc = target := rfl

/-- The word of `2nnn` by place value: class 2, then the field `nnn` (R53). -/
theorem encode_callNnn_toNat (nnn : BitVec 12) : (encode (.callNnn nnn)).toNat = 0x2000 + nnn.toNat :=
  formatNnn_toNat 0x2#4 nnn

/-- Settles O22: the slots of the state after a call, and the fetch from an odd target; a full stack has no free
slot. -/
theorem callPushesAndJumps : Obligations.CallPushesAndJumps := by
  refine fun nnn s => ⟨encode_callNnn_toNat nnn, fun h => ?_, exec_callNnn_of_full nnn⟩
  have hpc : (afterCall s (addressOf nnn) h).pc.toNat = nnn.toNat := by simp
  exact ⟨_, exec_callNnn_of_room nnn h, afterCall_stack_top _ h, fun _ => afterCall_stack_other _ h, rfl, hpc,
    fun _ => rfl, rfl, fun hodd => runInstruction_of_odd_pc (hpc ▸ hodd)⟩

/-! ### The return (R87) -/

/-- The index of the top slot, where there is one. -/
theorem topSlot_lt {s : State} (h : 0 < s.sp.val) : s.sp.val - 1 < 16 := by omega

/-- The state a return answers: the top slot in `PC`, and one call fewer outstanding. -/
def afterReturn (s : State) (h : 0 < s.sp.val) : State :=
  { s with sp := ⟨s.sp.val - 1, Nat.lt_succ_of_lt (topSlot_lt h)⟩, pc := s.stack[s.sp.val - 1]'(topSlot_lt h) }

theorem exec_ret_of_outstanding {s : State} (h : 0 < s.sp.val) : exec .ret s = .next (afterReturn s h) := dif_pos h

theorem exec_ret_of_empty {s : State} (h : s.sp.val = 0) :
    exec .ret s = .next (s.enterFault .stackUnderflow 0x00EE#16) := dif_neg (by omega)

theorem afterReturn_pc_eq_top {s : State} (h : 0 < s.sp.val) :
    s.stack[(afterReturn s h).sp.val]? = some (afterReturn s h).pc :=
  Vector.getElem?_eq_getElem (topSlot_lt h)

/-- Settles O23: the state after a return changes `SP` and `PC` only; an empty stack has no top slot. -/
theorem returnPopsIntoPc : Obligations.ReturnPopsIntoPc := fun _ =>
  ⟨rfl, fun h => ⟨_, exec_ret_of_outstanding h, Nat.sub_add_cancel h, afterReturn_pc_eq_top h, fun _ => rfl, rfl⟩,
    exec_ret_of_empty⟩

end Sys2Proof
end

section
/-! PROOFS. The encoding as a whole: the round trips, the row of a word, the words that are no instruction, and the
assembly line of an instruction (R52 to R62). -/

namespace Sys2Proof

/-- Settles O1: each class and subcode leads the decoder back to the instruction's own row. -/
theorem decodeOfEncodeIsTheInstruction : Obligations.DecodeOfEncodeIsTheInstruction := fun _ => decode_encode

/-- Settles O2, class by class. -/
theorem encodeOfDecodeIsTheWord : Obligations.EncodeOfDecodeIsTheWord := fun _ _ => encode_of_decode

/-! ### The rows of a word (R57) -/

theorem opcodeTable_nodup : opcodeTable.Nodup := by decide

/-- The row of the table that a decoded word matches is that of its instruction, and no other. -/
theorem matchesWord_iff_row_eq {w : Word} {i : Instr} (hd : decode w = .ok i) {r : OpcodeRow} (hr : r ∈ opcodeTable) :
    r.matchesWord w = true ↔ r = i.row := by
  constructor
  · intro hmatch
    obtain ⟨j, hj, hrow⟩ := decode_of_mem_opcodeTable hr hmatch
    cases hd.symm.trans hj
    exact hrow.symm
  · rintro rfl
    exact row_matchesWord_of_decode hd

theorem filter_rows_of_decode {w : Word} {i : Instr} (hd : decode w = .ok i) :
    opcodeTable.filter (fun r => r.matchesWord w) = [i.row] := by
  have hsame : ∀ r ∈ opcodeTable, r.matchesWord w = (r == i.row) := fun r hr =>
    Bool.eq_iff_iff.2 ((matchesWord_iff_row_eq hd hr).trans beq_iff_eq.symm)
  rw [List.filter_congr hsame, List.filter_beq,
    List.count_eq_one_of_mem opcodeTable_nodup (row_mem_opcodeTable i), List.replicate_one]

theorem filter_rows_of_reject {w : Word} {e : DecodeError} (hd : decode w = .error e) :
    opcodeTable.filter (fun r => r.matchesWord w) = [] := by
  refine List.filter_eq_nil_iff.2 fun r hr hmatch => ?_
  obtain ⟨i, hi, -⟩ := decode_of_mem_opcodeTable hr hmatch
  cases hd.symm.trans hi

/-- Settles O3: of the rows of the table, which are all different, a decoded word matches its instruction's row
alone, and a rejected word none. -/
theorem wordMatchesOneRowOrNone : Obligations.WordMatchesOneRowOrNone := by
  intro w
  cases hd : decode w with
  | ok i => exact filter_rows_of_decode hd
  | error e => exact filter_rows_of_reject hd

/-! ### The words that are no instruction (R58) -/

theorem classOf_eq_iff {w : Word} {c : BitVec 4} : classOf w = c ↔ w.toNat / 4096 = c.toNat := by
  rw [← classOf_toNat, BitVec.toNat_inj]

theorem nOf_eq_iff {w : Word} {n : BitVec 4} : nOf w = n ↔ w.toNat % 16 = n.toNat := by
  rw [← nOf_toNat, BitVec.toNat_inj]

theorem kkOf_eq_iff {w : Word} {k : Byte} : kkOf w = k ↔ w.toNat % 256 = k.toNat := by
  rw [← kkOf_toNat, BitVec.toNat_inj]

/-- The words of rule R58, class by class. -/
def MatchesNoRow (w : Word) : Prop :=
  (w.toNat / 4096 = 0x0 ∧ w.toNat ≠ 0x00E0 ∧ w.toNat ≠ 0x00EE) ∨
  (w.toNat / 4096 = 0x5 ∧ w.toNat % 16 ≠ 0) ∨
  (w.toNat / 4096 = 0x8 ∧ w.toNat % 16 ∈ [0x8, 0x9, 0xA, 0xB, 0xC, 0xD, 0xF]) ∨
  (w.toNat / 4096 = 0x9 ∧ w.toNat % 16 ≠ 0) ∨
  (w.toNat / 4096 = 0xE ∧ w.toNat % 256 ∉ [0x9E, 0xA1]) ∨
  (w.toNat / 4096 = 0xF ∧ w.toNat % 256 ∉ [0x07, 0x0A, 0x15, 0x18, 0x1E, 0x29, 0x33, 0x55, 0x65])

section
variable {w : Word} {e : DecodeError} {i : Instr} {P : Prop}

/-- A case of the decoder that rejects, where the condition `P` of rejecting is met. -/
theorem reject_eq_error_iff (h : P) :
    (.error (.unknownOpcode w) : Except DecodeError Instr) = .error e ↔ P ∧ .unknownOpcode w = e := by
  simp [h]

/-- A case of the decoder that accepts, where the condition `P` of rejecting fails. -/
theorem accept_eq_error_iff (h : ¬P) : (.ok i : Except DecodeError Instr) = .error e ↔ P ∧ .unknownOpcode w = e := by
  simp [h]

theorem decode0_eq_error_iff :
    decode0 w = .error e ↔ (w.toNat ≠ 0x00E0 ∧ w.toNat ≠ 0x00EE) ∧ .unknownOpcode w = e := by
  unfold decode0
  split
  case h_1 | h_2 => exact accept_eq_error_iff (by decide)
  case h_3 h1 h2 =>
    exact reject_eq_error_iff ⟨fun h => h1 (BitVec.eq_of_toNat_eq h), fun h => h2 (BitVec.eq_of_toNat_eq h)⟩

theorem decode5_eq_error_iff : decode5 w = .error e ↔ w.toNat % 16 ≠ 0 ∧ .unknownOpcode w = e := by
  unfold decode5
  split
  case h_1 hn => exact accept_eq_error_iff (not_not_intro (nOf_eq_iff.1 hn))
  case h_2 hn => exact reject_eq_error_iff (fun h => hn (nOf_eq_iff.2 h))

theorem subcode8_free : ∀ n : BitVec 4, n ∉ [0x0#4, 0x1#4, 0x2#4, 0x3#4, 0x4#4, 0x5#4, 0x6#4, 0x7#4, 0xE#4] →
    n.toNat ∈ [0x8, 0x9, 0xA, 0xB, 0xC, 0xD, 0xF] := by decide

theorem decode8_eq_error_iff :
    decode8 w = .error e ↔ w.toNat % 16 ∈ [0x8, 0x9, 0xA, 0xB, 0xC, 0xD, 0xF] ∧ .unknownOpcode w = e := by
  unfold decode8
  split
  case h_10 =>
    refine reject_eq_error_iff (nOf_toNat w ▸ subcode8_free (nOf w) ?_)
    simp_all
  all_goals next hn => exact accept_eq_error_iff (by rw [nOf_eq_iff.1 hn]; decide)

theorem decode9_eq_error_iff : decode9 w = .error e ↔ w.toNat % 16 ≠ 0 ∧ .unknownOpcode w = e := by
  unfold decode9
  split
  case h_1 hn => exact accept_eq_error_iff (not_not_intro (nOf_eq_iff.1 hn))
  case h_2 hn => exact reject_eq_error_iff (fun h => hn (nOf_eq_iff.2 h))

theorem decodeE_eq_error_iff : decodeE w = .error e ↔ w.toNat % 256 ∉ [0x9E, 0xA1] ∧ .unknownOpcode w = e := by
  unfold decodeE
  split
  case h_3 => exact reject_eq_error_iff (by simp_all [kkOf_eq_iff])
  all_goals next hk => exact accept_eq_error_iff (by rw [kkOf_eq_iff.1 hk]; decide)

theorem decodeF_eq_error_iff : decodeF w = .error e ↔
    w.toNat % 256 ∉ [0x07, 0x0A, 0x15, 0x18, 0x1E, 0x29, 0x33, 0x55, 0x65] ∧ .unknownOpcode w = e := by
  unfold decodeF
  split
  case h_10 => exact reject_eq_error_iff (by simp_all [kkOf_eq_iff])
  all_goals next hk => exact accept_eq_error_iff (by rw [kkOf_eq_iff.1 hk]; decide)

theorem class_mem : ∀ c : BitVec 4, c ∈ [0x0#4, 0x1#4, 0x2#4, 0x3#4, 0x4#4, 0x5#4, 0x6#4, 0x7#4, 0x8#4, 0x9#4, 0xA#4,
    0xB#4, 0xC#4, 0xD#4, 0xE#4, 0xF#4] := by decide

/-- The decoder rejects exactly the words of rule R58, and by name: in a class with a subcode as that class's decoder
does, and in no other class. -/
theorem decode_eq_error_iff : decode w = .error e ↔ MatchesNoRow w ∧ .unknownOpcode w = e := by
  unfold decode MatchesNoRow
  split
  case h_1 hc => simp [decode0_eq_error_iff, classOf_eq_iff.1 hc]
  case h_6 hc => simp [decode5_eq_error_iff, classOf_eq_iff.1 hc]
  case h_9 hc => simp [decode8_eq_error_iff, classOf_eq_iff.1 hc]
  case h_10 hc => simp [decode9_eq_error_iff, classOf_eq_iff.1 hc]
  case h_15 hc => simp [decodeE_eq_error_iff, classOf_eq_iff.1 hc]
  case h_16 hc => simp [decodeF_eq_error_iff, classOf_eq_iff.1 hc]
  case h_17 =>
    exact absurd (class_mem (classOf w)) (by simp_all)
  all_goals next hc => simp [classOf_eq_iff.1 hc]

end

/-- Settles O4, by the decoder of each class. -/
theorem unknownOpcodesAreThoseListed : Obligations.UnknownOpcodesAreThoseListed := fun _ =>
  ⟨decode_eq_error_iff.trans (and_iff_left rfl), fun _ h => (decode_eq_error_iff.1 h).2.symm⟩

/-- Settles O5, by evaluation of the decoder on the seven words. -/
theorem writtenOutWordsDecode : Obligations.WrittenOutWordsDecode := by
  unfold Obligations.WrittenOutWordsDecode
  decide

/-! ### Assembly (R55, R61) -/

theorem fieldOf_toNat {w : Nat} (b : BitVec w) : fieldOf w b.toNat = some b := by
  simp [fieldOf, b.isLt]

theorem assemble_asmOf {i : Instr} (hwf : i.wellFormed = true) : assemble (asmOf i) = some i := by
  cases i with
  | drwVxVyN x y n =>
    have hn : n < 16 := of_decide_eq_true hwf
    simp [asmOf, assemble, hn]
  | jpNnn | callNnn | ldINnn | jpV0Nnn | seVxKk | sneVxKk | ldVxKk | addVxKk | rndVxKk =>
    simp [asmOf, assemble, fieldOf_toNat]
  | _ => rfl

/-- Settles O7: the mnemonic and the operands' kinds single out the row, and a number is read back by its field. -/
theorem assemblyNamesOneInstruction : Obligations.AssemblyNamesOneInstruction :=
  ⟨fun _ => assemble_asmOf, fun _ => ⟨rfl, rfl⟩⟩

end Sys2Proof
end

section
/-! PROOFS. Whose turn it is: a step is one transition of one agent, the first listed or else the engine, with its turn
taken from the schedule (R43, R44; assumption log 4). -/

namespace Sys2Proof

open Machine

/-- The agent's transition that comes next. -/
def turn (s : State) : Event := s.schedule.head?.getD .engine

/-- The state with that turn taken. -/
def taken (s : State) : State := { s with schedule := s.schedule.tail }

theorem taken_of_no_schedule {s : State} (h : s.schedule = []) : taken s = s := by
  cases s
  cases h
  rfl

theorem step_eq_transition (s : State) : step s = transition (turn s) (taken s) := by
  cases h : s.schedule with
  | nil => rw [step_of_no_schedule h, turn, taken_of_no_schedule h, h]; rfl
  | cons e rest => rw [step_of_schedule h, turn, taken, h]; rfl

theorem schedule_of_turn_engine {s : State} (h : turn s = .engine) :
    s.schedule = [] ∨ s.schedule.head? = some .engine := by
  cases hs : s.schedule with
  | nil => exact .inl rfl
  | cons e rest =>
    rw [turn, hs] at h
    exact .inr (congrArg some h)

theorem head_of_turn {s : State} {e : Event} (h : turn s = e) (he : e ≠ .engine) : s.schedule.head? = some e := by
  cases hs : s.schedule with
  | nil =>
    rw [turn, hs] at h
    exact absurd h.symm he
  | cons _ _ =>
    rw [turn, hs] at h
    exact congrArg some h

end Sys2Proof
end

section
/-! PROOFS. What each instruction can do to the state, said once: the effects, grouped by the parts they write, and
which instruction has which. What no instruction does follows by cases on the effect (R10, R66, R67). -/

namespace Sys2Proof

open Machine

/-- Which instruction raises which fault, with which information (R110, R116). -/
def MayRaise (i : Instr) (k : FaultKind) (w : Word) : Prop :=
  (∃ nnn, i = .callNnn nnn ∧ k = .stackOverflow ∧ w = encode i) ∨
  (i = .ret ∧ k = .stackUnderflow ∧ w = 0x00EE#16) ∨
  (k = .invalidAddress ∧
    ((∃ x y n, i = .drwVxVyN x y n) ∨ ∃ x, i = .addIVx x ∨ i = .ldBVx x ∨ i = .ldMemVx x ∨ i = .ldVxMem x))

theorem MayRaise.ne_noFault {i : Instr} {k : FaultKind} {w : Word} (h : MayRaise i k w) : k ≠ .noFault := by
  rcases h with ⟨_, -, rfl, -⟩ | ⟨-, rfl, -⟩ | ⟨rfl, -⟩ <;> decide

/-- Register files that differ only in registers that the instruction may write. -/
def WritesAllowed (i : Instr) (v v' : Vector Byte 16) : Prop := ∀ r : Reg, v'[r] ≠ v[r] → mayWrite i r

/-- Where an instruction that writes nothing but `PC` may leave it (R66, R84, R85). -/
def IsTarget (s : State) (a : Word) : Prop :=
  a = s.pc + 2 ∨ a = s.pc + 4 ∨ ∃ nnn, a = addressOf nnn ∨ a = s.v0Target nnn

/-- The effects of instructions on a state: which state each leads to, and which instructions have it. -/
inductive Effect (s : State) : Instr → State → Prop
  | fault {i k w} (h : MayRaise i k w) : Effect s i (s.enterFault k w)
  | move {i a} (h : IsTarget s a) : Effect s i { s with pc := a }
  | call {nnn} (h : s.sp.val < 16) : Effect s (.callNnn nnn) (afterCall s (addressOf nnn) h)
  | ret (h : 0 < s.sp.val) : Effect s .ret (afterReturn s h)
  | registers {i v} (h : WritesAllowed i s.v v) : Effect s i { s with v := v, pc := s.pc + 2 }
  | random {x kk v} (h : WritesAllowed (.rndVxKk x kk) s.v v) :
    Effect s (.rndVxKk x kk) { s with v := v, pc := s.pc + 2, draws := s.draws + 1 }
  | index {i a} (h : (∃ nnn, i = .ldINnn nnn) ∨ ∃ x, i = .addIVx x ∨ i = .ldFVx x) (ha : a.toNat ≤ 0xFFF) :
    Effect s i { s with i := a, pc := s.pc + 2 }
  | store {i bs} (h : ∃ x, i = .ldBVx x ∨ i = .ldMemVx x)
    (hw : ∀ b, s.base ≤ b → b < s.base + bs.length → 0x200 ≤ b ∧ b ≤ 0xFFF) :
    Effect s i { s with mem := s.mem.writeBytes s.base bs, pc := s.pc + 2 }
  | clear : Effect s .cls { s with fb := blankScreen, frameSeq := s.frameSeq + 1, pc := s.pc + 2 }
  | draw {x y n v fb} (h : WritesAllowed (.drwVxVyN x y n) s.v v) :
    Effect s (.drwVxVyN x y n) { s with v := v, fb := fb, frameSeq := s.frameSeq + 1, pc := s.pc + 2 }
  | delay {x b} : Effect s (.ldDtVx x) { s with dt := b, pc := s.pc + 2 }
  | sound {x b} : Effect s (.ldStVx x) { s with st := b, pc := s.pc + 2 }
  | wait {x} : Effect s (.ldVxK x) { s with waitX := x, prevKeys := s.keys, run := .waitKey }

/-! ### The effect of each group of instructions -/

theorem writesAllowed_setReg {i : Instr} {x : Reg} (s : State) (b : Byte) (h : mayWrite i x) :
    WritesAllowed i s.v (s.setReg x b).v := by
  intro r hr
  by_cases hrx : r = x
  · exact hrx ▸ h
  · exact absurd (reg_setReg_other s b hrx) hr

theorem writesAllowed_setRegFlag {i : Instr} {x : Reg} (s : State) (b f : Byte) (h : mayWrite i x)
    (hF : mayWrite i regF) : WritesAllowed i s.v (s.setRegFlag x b f).v := by
  intro r hr
  by_cases hrF : r = regF
  · exact hrF ▸ hF
  · refine writesAllowed_setReg s b h r fun hsame => hr ?_
    exact (reg_setReg_other (s.setReg x b) f hrF).trans hsame

theorem writesAllowed_loadRegs (x : Reg) (s : State) :
    WritesAllowed (.ldVxMem x) s.v (loadRegs s (regsUpTo x)).v := by
  intro r hr
  by_contra hx
  exact hr ((reg_loadRegs s (regsUpTo x) r).trans (if_neg (mt mem_regsUpTo.1 hx)))

theorem isTarget_skipIf (s : State) (c : Bool) : IsTarget s (s.complete (skipIf c)).pc := by
  cases c
  · exact .inl rfl
  · exact .inr (.inl rfl)

theorem effect_finish_skipIf {i : Instr} {s t : State} {c : Bool} (h : finish s (skipIf c) = .next t) :
    Effect s i t := by
  cases h
  have h := Effect.move (i := i) (isTarget_skipIf s c)
  cases c <;> exact h

theorem effect_checkedRange {i : Instr} {s t : State} {ok : Nat → Bool} {a k : Nat}
    {e : Host.Outcome State Fault Refusal} (hr : ∀ w, MayRaise i .invalidAddress w)
    (he : (∀ b, a ≤ b → b < a + k → ok b = true) → e = .next t → Effect s i t)
    (h : checkedRange s ok a k e = .next t) : Effect s i t := by
  rcases checkedRange_cases s ok a k e with ⟨hc, hok⟩ | ⟨b, -, hc⟩
  · exact he hok (hc ▸ h)
  · cases hc.symm.trans h
    exact .fault (hr _)

theorem effect_storeAtI {i : Instr} {s t : State} {bs : List Byte} (hi : ∃ x, i = .ldBVx x ∨ i = .ldMemVx x)
    (h : storeAtI s bs = .next t) : Effect s i t := by
  refine effect_checkedRange (fun w => ?_) (fun hok he => ?_) h
  · obtain ⟨x, hx⟩ := hi
    exact .inr (.inr ⟨rfl, .inr ⟨x, hx.elim (fun h => .inr (.inl h)) fun h => .inr (.inr (.inl h))⟩⟩)
  · cases he
    exact .store hi fun b h1 h2 => writable_iff.1 (hok b h1 h2)

theorem addressOf_le (nnn : BitVec 12) : (addressOf nnn).toNat ≤ 0xFFF := by
  have := nnn.isLt
  rw [addressOf_toNat]
  omega

theorem glyphAddress_toNat (d : Fin 16) : (glyphAddress d).toNat = 5 * d.val := by
  simp only [glyphAddress, fontBase, glyphBytes, BitVec.toNat_ofNat]
  omega

/-- Every instruction has one of the effects, the one of its group. -/
theorem exec_effect {i : Instr} {s t : State} (h : exec i s = .next t) : Effect s i t := by
  cases i with
  | cls => cases h; exact .clear
  | ret =>
    rcases Nat.eq_zero_or_pos s.sp.val with hsp | hsp
    · cases (exec_ret_of_empty hsp).symm.trans h
      exact .fault (.inr (.inl ⟨rfl, rfl, rfl⟩))
    · cases (exec_ret_of_outstanding hsp).symm.trans h
      exact .ret hsp
  | jpNnn nnn => cases h; exact .move (.inr (.inr ⟨nnn, .inl rfl⟩))
  | jpV0Nnn nnn => cases h; exact .move (.inr (.inr ⟨nnn, .inr rfl⟩))
  | callNnn nnn =>
    by_cases hsp : s.sp.val < 16
    · cases (exec_callNnn_of_room nnn hsp).symm.trans h
      exact .call hsp
    · cases (exec_callNnn_of_full nnn (by omega)).symm.trans h
      exact .fault (.inl ⟨nnn, rfl, rfl, rfl⟩)
  | seVxKk | sneVxKk | seVxVy | sneVxVy | skpVx | sknpVx => exact effect_finish_skipIf h
  | ldVxKk | addVxKk | ldVxVy | orVxVy | andVxVy | xorVxVy | ldVxDt =>
    cases h; exact .registers (writesAllowed_setReg s _ rfl)
  | addVxVy | subVxVy | shrVxVy | subnVxVy | shlVxVy =>
    cases h; exact .registers (writesAllowed_setRegFlag s _ _ (.inl rfl) (.inr rfl))
  | rndVxKk => cases h; exact .random (writesAllowed_setReg s _ rfl)
  | drwVxVyN x y n =>
    refine effect_checkedRange (fun w => .inr (.inr ⟨rfl, .inl ⟨x, y, n, rfl⟩⟩)) (fun _ he => ?_) h
    cases he
    exact .draw (writesAllowed_setReg s _ rfl)
  | ldINnn nnn => cases h; exact .index (.inl ⟨nnn, rfl⟩) (addressOf_le nnn)
  | ldFVx x =>
    cases h
    refine .index (.inr ⟨x, .inr rfl⟩) ?_
    rw [glyphAddress_toNat]
    omega
  | addIVx x =>
    simp only [exec, execAddIVx] at h
    split at h
    · next hlt =>
      cases h
      refine .index (.inr ⟨x, .inl rfl⟩) ?_
      simp only [Config.memSize] at hlt
      rw [BitVec.toNat_ofNat]
      omega
    · cases h
      exact .fault (.inr (.inr ⟨rfl, .inr ⟨x, .inl rfl⟩⟩))
  | ldBVx x => exact effect_storeAtI ⟨x, .inl rfl⟩ h
  | ldMemVx x => exact effect_storeAtI ⟨x, .inr rfl⟩ h
  | ldVxMem x =>
    refine effect_checkedRange (fun w => .inr (.inr ⟨rfl, .inr ⟨x, .inr (.inr (.inr rfl))⟩⟩)) (fun _ he => ?_) h
    cases (finish_loadRegs s _).symm.trans he
    exact .registers (writesAllowed_loadRegs x s)
  | ldDtVx => cases h; exact .delay
  | ldStVx => cases h; exact .sound
  | ldVxK => cases h; exact .wait

/-- Settles O45: of the effects, only the fault halts a running engine. -/
theorem instructionsRaiseOnlyTheirOwnFault : Obligations.InstructionsRaiseOnlyTheirOwnFault := by
  intro i s t hrun h hhalt
  cases exec_effect h with
  | fault hr => exact hr
  | wait => cases hhalt
  | _ => cases hrun.symm.trans hhalt

/-! ### What each part of the state is written by -/

section
variable {s t : State} {i : Instr}

theorem Effect.writesAllowed (h : Effect s i t) : WritesAllowed i s.v t.v := by
  cases h with
  | registers hv | random hv | draw hv => exact hv
  | _ => exact fun r hr => absurd rfl hr

theorem Effect.index_of_ne (h : Effect s i t) (hne : t.i ≠ s.i) :
    (∃ a, i = .ldINnn a) ∨ ∃ x, i = .addIVx x ∨ i = .ldFVx x := by
  cases h with
  | index hi => exact hi
  | _ => exact absurd rfl hne

theorem Effect.sp_of_ne (h : Effect s i t) (hne : t.sp ≠ s.sp) : i = .ret ∨ ∃ a, i = .callNnn a := by
  cases h with
  | call => exact .inr ⟨_, rfl⟩
  | ret => exact .inl rfl
  | _ => exact absurd rfl hne

theorem Effect.stack_of_ne (h : Effect s i t) (hne : t.stack ≠ s.stack) : ∃ a, i = .callNnn a := by
  cases h with
  | call => exact ⟨_, rfl⟩
  | _ => exact absurd rfl hne

theorem Effect.dt_of_ne (h : Effect s i t) (hne : t.dt ≠ s.dt) : ∃ x, i = .ldDtVx x := by
  cases h with
  | delay => exact ⟨_, rfl⟩
  | _ => exact absurd rfl hne

theorem Effect.st_of_ne (h : Effect s i t) (hne : t.st ≠ s.st) : ∃ x, i = .ldStVx x := by
  cases h with
  | sound => exact ⟨_, rfl⟩
  | _ => exact absurd rfl hne

theorem Effect.mem_of_ne (h : Effect s i t) (hne : ∃ a, t.mem.read a ≠ s.mem.read a) :
    ∃ x, i = .ldBVx x ∨ i = .ldMemVx x := by
  obtain ⟨a, hne⟩ := hne
  cases h with
  | store hi => exact hi
  | _ => exact absurd rfl hne

theorem Effect.screen_of_ne (h : Effect s i t) (hne : t.fb ≠ s.fb ∨ t.frameSeq ≠ s.frameSeq) :
    i = .cls ∨ ∃ x y n, i = .drwVxVyN x y n := by
  cases h with
  | clear => exact .inl rfl
  | draw => exact .inr ⟨_, _, _, rfl⟩
  | _ => exact hne.elim (absurd rfl) (absurd rfl)

theorem Effect.wait_of_ne (h : Effect s i t)
    (hne : t.waitX ≠ s.waitX ∨ t.prevKeys ≠ s.prevKeys ∨ (t.run = .waitKey ∧ s.run ≠ .waitKey)) :
    ∃ x, i = .ldVxK x := by
  cases h with
  | wait => exact ⟨_, rfl⟩
  | fault => simp at hne
  | _ => exact hne.elim (absurd rfl) (·.elim (absurd rfl) fun hw => absurd hw.1 hw.2)

theorem Effect.draws_of_ne (h : Effect s i t) (hne : t.draws ≠ s.draws) : ∃ x kk, i = .rndVxKk x kk := by
  cases h with
  | random => exact ⟨_, _, rfl⟩
  | _ => exact absurd rfl hne

theorem Effect.keys_eq (h : Effect s i t) : t.keys = s.keys := by cases h <;> rfl

theorem Effect.schedule_eq (h : Effect s i t) : t.schedule = s.schedule := by cases h <;> rfl

end

/-- Settles O53: each part of the state is written by the effects that name it, which the named instructions have. -/
theorem onlyTheNamedInstructionsWrite : Obligations.OnlyTheNamedInstructionsWrite := by
  intro i s t h
  have he := exec_effect h
  exact ⟨he.writesAllowed, he.index_of_ne, he.sp_of_ne, he.stack_of_ne, he.dt_of_ne, he.st_of_ne, he.mem_of_ne,
    he.screen_of_ne, he.wait_of_ne, he.draws_of_ne, he.keys_eq, he.schedule_eq⟩

end Sys2Proof
end

section
/-! PROOFS. The machine's invariant: it holds at reset, and each transition of each agent keeps it; an instruction keeps
it by its effect (R16, R17, R27, R29, R35, R86, R109, R110). -/

namespace Sys2Proof.Machine

/-! ### At reset -/

theorem reset_stack (j : Fin 16) : State.reset.stack[j] = 0#16 := Vector.getElem_replicate j.isLt

/-- Settles O54: each field of the invariant is a value stated for reset. -/
theorem invariantHoldsAtReset : Obligations.InvariantHoldsAtReset where
  memoryCanonical := empty_wf
  reservedIntact := fun _ _ => rfl
  indexInRange := by decide
  pcBounded := by decide
  stackEven := fun j => by rw [reset_stack]; decide
  haltedIffFault := by decide
  noFaultNoInfo := fun _ => rfl
  waitingAtKeyInstruction := by decide

section
variable {s : State} (h : MachineInvariant s)
include h

/-! ### Faults and control transfers -/

theorem MachineInvariant.enterFault {k : FaultKind} (hk : k ≠ .noFault) (w : Word) :
    MachineInvariant (s.enterFault k w) :=
  { h with
    haltedIffFault := iff_of_true rfl hk
    noFaultNoInfo := fun hk' => absurd hk' hk
    waitingAtKeyInstruction := fun hw => absurd hw (by simp) }

/-- A running engine keeps the invariant when `PC` moves within its bound. -/
theorem MachineInvariant.setPc (hrun : s.run = .running) {a : Word} (ha : a.toNat ≤ 0x10FE) :
    MachineInvariant { s with pc := a } :=
  { h with
    pcBounded := ha
    waitingAtKeyInstruction := fun hw => absurd (hrun.symm.trans hw) (by decide) }

omit h in
/-- Behind a fetched instruction there is room for `PC` to move by two or four. -/
theorem pc_add_toNat (hp : fetchable s.pc = true) {d : Nat} (hd : d ≤ 4) :
    (s.pc + BitVec.ofNat 16 d).toNat = s.pc.toNat + d := by
  have hle := (fetchable_iff.1 hp).2
  rw [BitVec.toNat_add, BitVec.toNat_ofNat]
  omega

theorem MachineInvariant.next (hrun : s.run = .running) (hp : fetchable s.pc = true) :
    MachineInvariant { s with pc := s.pc + 2 } := by
  refine h.setPc hrun ?_
  have hle := (fetchable_iff.1 hp).2
  have h2 : (s.pc + 2).toNat = s.pc.toNat + 2 := pc_add_toNat hp (by decide)
  omega

omit h in
theorem v0Target_toNat (nnn : BitVec 12) : (s.v0Target nnn).toNat = nnn.toNat + (s.reg 0).toNat := by
  have hn := nnn.isLt
  have hb := (s.reg 0).isLt
  rw [State.v0Target, BitVec.toNat_add, addressOf_toNat, BitVec.toNat_setWidth]
  omega

omit h in
/-- "largest value formed: `0x10FE` by `Bnnn`" (R17). -/
theorem target_le (hp : fetchable s.pc = true) {a : Word} (ha : IsTarget s a) : a.toNat ≤ 0x10FE := by
  have hle := (fetchable_iff.1 hp).2
  rcases ha with rfl | rfl | ⟨nnn, rfl | rfl⟩
  · have h2 : (s.pc + 2).toNat = s.pc.toNat + 2 := pc_add_toNat hp (by decide)
    omega
  · have h4 : (s.pc + 4).toNat = s.pc.toNat + 4 := pc_add_toNat hp (by decide)
    omega
  · exact (addressOf_le nnn).trans (by decide)
  · have hn := nnn.isLt
    have hb := (s.reg 0).isLt
    rw [v0Target_toNat]
    omega

/-- The slot that a call writes gets the address after a fetched instruction, which is even and at most 0x1000. -/
theorem MachineInvariant.call (hrun : s.run = .running) (hp : fetchable s.pc = true) (nnn : BitVec 12)
    (hsp : s.sp.val < 16) : MachineInvariant (afterCall s (addressOf nnn) hsp) := by
  obtain ⟨heven, hle⟩ := fetchable_iff.1 hp
  have h2 : (s.pc + 2).toNat = s.pc.toNat + 2 := pc_add_toNat hp (by decide)
  have hmoved := h.setPc hrun ((addressOf_le nnn).trans (by decide))
  refine { hmoved with stackEven := fun j => ?_ }
  by_cases hj : j.val = s.sp.val
  · have htop : (afterCall s (addressOf nnn) hsp).stack[j] = s.pc + 2 := by
      simp [afterCall, hj, State.returnAddress]
    rw [htop]
    omega
  · rw [afterCall_stack_other _ hsp hj]
    exact h.stackEven j

theorem MachineInvariant.ret (hrun : s.run = .running) (hsp : 0 < s.sp.val) :
    MachineInvariant (afterReturn s hsp) := by
  have htop := (h.stackEven ⟨s.sp.val - 1, topSlot_lt hsp⟩).2
  have hmoved := h.setPc hrun (htop.trans (by decide))
  exact { hmoved with }

/-- A checked store stays in the RAM and outside the reserved region (R35, R37). -/
theorem MachineInvariant.writeBytes {a : Nat} {bs : List Byte} (hrun : s.run = .running)
    (hw : ∀ b, a ≤ b → b < a + bs.length → 0x200 ≤ b ∧ b ≤ 0xFFF) :
    MachineInvariant { s with mem := s.mem.writeBytes a bs } := by
  refine { h with
    memoryCanonical := ?_
    reservedIntact := fun b hb => ?_
    waitingAtKeyInstruction := fun hw => absurd (hrun.symm.trans hw) (by decide) }
  · cases bs with
    | nil => exact h.memoryCanonical
    | cons v bs =>
      have hlast := (hw (a + bs.length) (by omega) (by simp)).2
      refine writeBytes_wf _ h.memoryCanonical ?_
      rw [List.length_cons, Config.memSize]
      omega
  · have hout : b < a ∨ a + bs.length ≤ b := by
      by_contra hin
      have hb' := (hw b (by omega) (by omega)).1
      omega
    rw [read_writeBytes_outside bs s.mem hout, h.reservedIntact b hb]

/-- An instruction that a running engine has fetched and decoded keeps the invariant, whatever effect it has. -/
theorem MachineInvariant.effect {i : Instr} {t : State} (hrun : s.run = .running) (hp : fetchable s.pc = true)
    (hd : decode s.fetchWord = .ok i) (he : Effect s i t) : MachineInvariant t := by
  have hnext := h.next hrun hp
  cases he with
  | fault hr => exact h.enterFault hr.ne_noFault _
  | move ha => exact h.setPc hrun (target_le hp ha)
  | call hsp => exact h.call hrun hp _ hsp
  | ret hsp => exact h.ret hrun hsp
  | index _ ha => exact { hnext with indexInRange := ha }
  | store _ hw => exact hnext.writeBytes hrun hw
  | wait =>
    exact { h with
      haltedIffFault := iff_of_false (by simp) fun hk => absurd (h.haltedIffFault.2 hk) (by simp [hrun])
      waitingAtKeyInstruction := fun _ => ⟨hp, hd⟩ }
  | registers | random | clear | draw | delay | sound => exact { hnext with }

/-! ### The engine's step -/

theorem MachineInvariant.runInstruction {t : State} (hrun : s.run = .running) (ht : runInstruction s = .next t) :
    MachineInvariant t := by
  rcases runInstruction_cases s with ⟨-, hr⟩ | ⟨_, -, -, hr⟩ | ⟨i, hp, hd, hr⟩
  · cases hr.symm.trans ht
    exact h.enterFault (by decide) _
  · cases hr.symm.trans ht
    exact h.enterFault (by decide) _
  · exact h.effect hrun hp hd (exec_effect (hr ▸ ht))

theorem MachineInvariant.faultKind_of_active (hrun : s.run.isActive = true) : s.faultKind = .noFault := by
  by_contra hk
  rw [h.haltedIffFault.2 hk] at hrun
  cases hrun

theorem MachineInvariant.waitSample (hrun : s.run = .waitKey) : MachineInvariant s.waitSample := by
  have hp := (h.waitingAtKeyInstruction hrun).1
  have hk := h.faultKind_of_active (hrun ▸ rfl)
  rcases waitSample_cases s with ⟨k, -, hs⟩ | ⟨-, hs⟩
  · rw [hs]
    exact { h with
      pcBounded := target_le hp (.inl rfl)
      haltedIffFault := iff_of_false (by simp) (not_not_intro hk)
      waitingAtKeyInstruction := fun hw => absurd hw (by simp) }
  · rw [hs]
    exact { h with }

theorem MachineInvariant.engineStep {t : State} (ht : engineStep s = .next t) : MachineInvariant t := by
  rcases (engineStep_answers_iff s).1 ⟨t, ht⟩ with hrun | hrun
  · exact h.runInstruction hrun (engineStep_running hrun ▸ ht)
  · cases (engineStep_waitKey hrun).symm.trans ht
    exact h.waitSample hrun

/-! ### The other agents -/

theorem MachineInvariant.tick : MachineInvariant s.tick := by
  unfold State.tick
  split
  · exact { h with }
  · exact h

theorem MachineInvariant.cancel : MachineInvariant s.cancel := by
  unfold State.cancel
  split
  · next hrun =>
    exact { h with
      haltedIffFault := iff_of_false (by simp) (not_not_intro (h.faultKind_of_active hrun))
      waitingAtKeyInstruction := fun hw => absurd hw (by simp) }
  · exact h

end

/-- The launch state of a ROM that loads: the state at reset with the ROM in RAM. -/
theorem launchState_of_le {rom : List Byte} (hlen : rom.length ≤ 3584) :
    launchState rom = .ok { State.reset with mem := State.reset.mem.writeBytes 0x200 rom } := if_pos hlen

theorem launchState_of_gt {rom : List Byte} (hlen : 3584 < rom.length) : launchState rom = .error .romTooLarge :=
  if_neg (by simpa [Config.romMax] using hlen)

theorem launch_of_le {rom : List Byte} (s : State) (hlen : rom.length ≤ 3584) :
    launch rom s = .next { State.reset with
      mem := State.reset.mem.writeBytes 0x200 rom, draws := s.draws, schedule := s.schedule } := by
  simp only [launch, launchState_of_le hlen]

theorem launch_of_gt {rom : List Byte} (s : State) (hlen : 3584 < rom.length) : launch rom s = .fault .romTooLarge := by
  simp only [launch, launchState_of_gt hlen]

theorem invariant_launch {rom : List Byte} {s t : State} (ht : launch rom s = .next t) : MachineInvariant t := by
  rcases Nat.lt_or_ge 3584 rom.length with hlen | hlen
  · cases (launch_of_gt s hlen).symm.trans ht
  · cases (launch_of_le s hlen).symm.trans ht
    have hloaded := invariantHoldsAtReset.writeBytes (a := 0x200) (bs := rom) rfl fun b h1 h2 => by omega
    exact { hloaded with }

/-- Each transition of each agent keeps the invariant. -/
theorem MachineInvariant.transition {e : Event} {s t : State} (h : MachineInvariant s)
    (ht : transition e s = .next t) : MachineInvariant t := by
  cases e with
  | engine => exact h.engineStep ht
  | tick => cases ht; exact h.tick
  | setKey key pressed => cases ht; exact { h with }
  | cancel => cases ht; exact h.cancel
  | launch rom => exact invariant_launch ht

/-- Settles O55: a step is the transition of one agent, with its turn taken, which the invariant does not speak of. -/
theorem everyStepKeepsTheInvariant : Obligations.EveryStepKeepsTheInvariant := by
  intro s t h ht
  have htaken : MachineInvariant (taken s) := { h with }
  exact htaken.transition (step_eq_transition s ▸ ht)

end Sys2Proof.Machine
end

section
/-! PROOFS. Loads, arithmetic, logic, shifts and the random byte: the one register write, or the write and the flag, and
the values they have as numbers (R71 to R82). -/

namespace Sys2Proof

open Machine

theorem answers_imp {o : Host.Outcome State Fault Refusal} {P Q : State → Prop} (h : Answers o P)
    (hpq : ∀ t, P t → Q t) : Answers o Q := by
  obtain ⟨t, ht, hp⟩ := h
  exact ⟨t, ht, hpq t hp⟩

/-- Settles O14: one register write, and a sum of bytes is modulo 256. -/
theorem addImmediateWrapsWithoutFlag : Obligations.AddImmediateWrapsWithoutFlag := fun x kk s =>
  answers_imp (answers_writeReg s x (s.reg x + kk)) fun _ ⟨hx, hw⟩ => ⟨hx ▸ BitVec.toNat_add _ _, hw⟩

/-- Settles O15: one register write each, of a value that is bitwise by its definition. -/
theorem copyAndLogicAreBitwise : Obligations.CopyAndLogicAreBitwise := fun x y s =>
  ⟨answers_writeReg s x (s.reg y),
    answers_imp (answers_writeReg s x (s.reg x ||| s.reg y)) fun _ ⟨hx, hw⟩ => ⟨fun _ => hx ▸ BitVec.getLsbD_or, hw⟩,
    answers_imp (answers_writeReg s x (s.reg x &&& s.reg y)) fun _ ⟨hx, hw⟩ => ⟨fun _ => hx ▸ BitVec.getLsbD_and, hw⟩,
    answers_imp (answers_writeReg s x (s.reg x ^^^ s.reg y)) fun _ ⟨hx, hw⟩ => ⟨fun _ => hx ▸ BitVec.getLsbD_xor, hw⟩⟩

/-! ### A register and the flag -/

/-- The one effect of an instruction whose whole pseudocode is `V[x] <- b`, `VF <- f`; return `Continue`. -/
theorem answers_writeRegFlag (s : State) (x : Reg) (b f : Byte) :
    Answers (writeRegFlag s x b f) fun t =>
      (x ≠ regF → t.reg x = b) ∧ t.reg regF = f ∧ WritesOnlyWithFlag x s t := by
  rw [writeRegFlag_eq, answers_next, complete_reg, complete_reg, reg_setRegFlag_flag]
  refine ⟨fun hx => ?_, rfl, rfl, fun r hr hrF => ?_, fun _ => rfl, rfl⟩
  · rw [reg_setRegFlag, if_neg hx, if_pos rfl]
  · rw [complete_reg, reg_setRegFlag, if_neg hrF, if_neg hr]

/-- The same with the two values read as the numbers that a statement has them as. -/
theorem answers_writeRegFlag_toNat {s : State} {x : Reg} {b f : Byte} {m n : Nat} (hb : b.toNat = m)
    (hf : f.toNat = n) :
    Answers (writeRegFlag s x b f) fun t =>
      (x ≠ regF → (t.reg x).toNat = m) ∧ (t.reg regF).toNat = n ∧ WritesOnlyWithFlag x s t :=
  answers_imp (answers_writeRegFlag s x b f) fun _ ⟨hx, hF, hw⟩ => ⟨fun h => hx h ▸ hb, hF ▸ hf, hw⟩

theorem flag_decide_toNat (p : Prop) [Decidable p] : (flag (decide p)).toNat = if p then 1 else 0 := by
  by_cases h : p <;> simp [flag, h]

/-- Settles O16: the sum modulo 256 and the carry, written as a register and the flag. -/
theorem addSetsCarry : Obligations.AddSetsCarry := fun _ _ _ =>
  answers_writeRegFlag_toNat (BitVec.toNat_add _ _) (flag_decide_toNat _)

theorem toNat_sub_eq_emod (a b : Byte) : ((a - b).toNat : Int) = ((a.toNat : Int) - b.toNat) % 256 := by
  have ha := a.isLt
  have hb := b.isLt
  rw [BitVec.toNat_sub]
  omega

theorem answers_subtract (s : State) (x : Reg) (a b : Byte) :
    Answers (writeRegFlag s x (a - b) (notBorrowFlag a b)) fun t =>
      (x ≠ regF → ((t.reg x).toNat : Int) = ((a.toNat : Int) - b.toNat) % 256) ∧
      (t.reg regF).toNat = (if a.toNat ≥ b.toNat then 1 else 0) ∧ WritesOnlyWithFlag x s t :=
  answers_imp (answers_writeRegFlag s x _ _) fun _ ⟨hx, hF, hw⟩ =>
    ⟨fun h => hx h ▸ toNat_sub_eq_emod a b, hF ▸ flag_decide_toNat _, hw⟩

/-- Settles O17: the subtraction of `Vy` from `Vx`. -/
theorem subtractSetsNotBorrow : Obligations.SubtractSetsNotBorrow := fun x y s =>
  answers_subtract s x (s.reg x) (s.reg y)

/-- Settles O18: the subtraction of `Vx` from `Vy`. -/
theorem reverseSubtractSetsNotBorrow : Obligations.ReverseSubtractSetsNotBorrow := fun x y s =>
  answers_subtract s x (s.reg y) (s.reg x)

theorem ushiftRight_one_toNat (a : Byte) : (a >>> 1).toNat = a.toNat / 2 := by
  simp [Nat.shiftRight_eq_div_pow]

theorem shiftedOutRight_toNat (a : Byte) : (shiftedOutRight a).toNat = a.toNat % 2 := by
  simp [shiftedOutRight, Nat.and_one_is_mod]

theorem shiftLeft_one_toNat (a : Byte) : (a <<< 1).toNat = (2 * a.toNat) % 256 := by
  simp [Nat.shiftLeft_eq, Nat.mul_comm]

theorem shiftedOutLeft_toNat (a : Byte) : (shiftedOutLeft a).toNat = a.toNat / 128 := by
  have ha := a.isLt
  simp only [shiftedOutLeft, BitVec.toNat_and, BitVec.toNat_ushiftRight, Nat.shiftRight_eq_div_pow,
    show (1#8).toNat = 1 from rfl, Nat.and_one_is_mod]
  omega

/-- Settles O19: halving and doubling, with the bit shifted out as the flag; `y` is not read. -/
theorem shiftsSetTheBitShiftedOut : Obligations.ShiftsSetTheBitShiftedOut := fun _ _ _ =>
  ⟨answers_writeRegFlag_toNat (ushiftRight_one_toNat _) (shiftedOutRight_toNat _),
    answers_writeRegFlag_toNat (shiftLeft_one_toNat _) (shiftedOutLeft_toNat _)⟩

/-! ### The random byte (R82) -/

/-- The effect of `Cxkk` for the byte drawn. -/
theorem answers_rndWith (r : Byte) (x : Reg) (kk : Byte) (s : State) : Answers (rndWith r x kk s) fun t =>
    t.reg x = r &&& kk ∧ t.draws = s.draws + 1 ∧ t.pc = s.pc + 2 ∧ (∀ q, q ≠ x → t.reg q = s.reg q) ∧
    SameMemory s t ∧ t = { s with v := t.v, pc := t.pc, draws := t.draws } := by
  rw [rndWith, writeReg_eq, answers_next, complete_reg, reg_setReg_same]
  exact ⟨rfl, rfl, rfl, fun q hq => reg_setReg_other _ _ hq, fun _ => rfl, rfl⟩

/-- Settles O20: the byte drawn stays free; masking with no bit gives 0, and with all bits the draw. -/
theorem randomByteIsMasked : Obligations.RandomByteIsMasked := fun x kk s =>
  answers_imp (answers_rndWith (Config.randomByte s.draws) x kk s) fun _ ⟨hx, hrest⟩ =>
    ⟨hx, fun hk => by rw [hx, hk, BitVec.and_zero], fun hk => by rw [hx, hk]; exact BitVec.and_allOnes, hrest⟩

end Sys2Proof
end

section
/-! PROOFS. Jumps and skips write nothing but `PC`, and a return undoes a call (R84 to R91, R106, R107). -/

namespace Sys2Proof

open Machine

theorem onlyPc_setPc (s : State) (a : Word) : OnlyPc s { s with pc := a } := ⟨fun _ => rfl, rfl⟩

/-- Settles O21: the target as a number, and a jump writes nothing but `PC`. -/
theorem jumpsGoToTheirTarget : Obligations.JumpsGoToTheirTarget := fun nnn s =>
  ⟨⟨_, rfl, addressOf_toNat nnn, onlyPc_setPc s _⟩, ⟨_, rfl, v0Target_toNat nnn, onlyPc_setPc s _⟩⟩

/-- Settles O24: the return pops the slot that the call has just pushed. -/
theorem returnUndoesCall : Obligations.ReturnUndoesCall := by
  intro nnn s t hsp ht
  cases (exec_callNnn_of_room nnn hsp).symm.trans ht
  have hout : 0 < (afterCall s (addressOf nnn) hsp).sp.val := Nat.succ_pos _
  refine ⟨_, exec_ret_of_outstanding hout, ?_⟩
  simp [afterReturn, afterCall, State.returnAddress]

/-! ### Skips -/

section
variable {s : State} {c : Bool} {p : Prop} [Decidable p]

/-- A skip whose condition says `p`. -/
theorem answers_skipIf (h : c = true ↔ p) : Answers (finish s (skipIf c)) fun t =>
    t.pc = (if p then s.pc + 4 else s.pc + 2) ∧ OnlyPc s t := by
  rw [finish_eq, answers_next, complete_skipIf_pc]
  refine ⟨if_congr h rfl rfl, ?_⟩
  cases c <;> exact onlyPc_setPc s _

/-- A skip whose condition says the opposite of `p`. -/
theorem answers_skipIf_not (h : c = true ↔ ¬p) : Answers (finish s (skipIf c)) fun t =>
    t.pc = (if p then s.pc + 2 else s.pc + 4) ∧ OnlyPc s t := by
  rw [← ite_not]
  exact answers_skipIf h

end

/-- Settles O25, by the conditions of the two skips. -/
theorem immediateSkipsCompare : Obligations.ImmediateSkipsCompare := fun _ _ _ =>
  ⟨answers_skipIf beq_iff_eq, answers_skipIf_not bne_iff_ne⟩

/-- Settles O26, by the conditions of the two skips. -/
theorem registerSkipsCompare : Obligations.RegisterSkipsCompare := fun _ _ _ =>
  ⟨answers_skipIf beq_iff_eq, answers_skipIf_not bne_iff_ne⟩

theorem lowNibble_val (b : Byte) : (lowNibble b).val = b.toNat % 16 := by
  show (b.extractLsb' 0 4).toNat = _
  simp

theorem keyPressed_lowNibble (s : State) (b : Byte) :
    s.keyPressed (lowNibble b) = true ↔ s.keys.getLsbD (b.toNat % 16) = true := by
  rw [State.keyPressed, lowNibble_val]

/-- Settles O40: the key is that of the low nibble, and the second skip's condition is the opposite. -/
theorem keySkipsReadTheKeypad : Obligations.KeySkipsReadTheKeypad := fun _ _ =>
  ⟨answers_skipIf (keyPressed_lowNibble _ _),
    answers_skipIf_not (by rw [Bool.not_eq_true', ← Bool.not_eq_true, keyPressed_lowNibble])⟩

end Sys2Proof
end

section
/-! PROOFS. The index register and the transfers through it: what a store and a load do where their range passes its
check, and the fault where it does not (R94 to R99, R36 to R38, R47). -/

namespace Sys2Proof

open Machine

/-! ### The index register -/

theorem answers_writeIndex {s : State} {a : Word} {n : Nat} (ha : a.toNat = n) : Answers (writeIndex s a) fun t =>
    t.i.toNat = n ∧ t.pc = s.pc + 2 ∧ SameMemory s t ∧ t = { s with i := t.i, pc := t.pc } :=
  ⟨_, writeIndex_eq s a, ha, rfl, fun _ => rfl, rfl⟩

/-- Settles O27: an address of 12 bits, or of a glyph, as a number. -/
theorem indexLoads : Obligations.IndexLoads := fun s =>
  ⟨fun nnn => answers_writeIndex (addressOf_toNat nnn),
    fun x => answers_writeIndex (by rw [glyphAddress_toNat, lowNibble_val])⟩

theorem exec_addIVx_of_le {x : Reg} {s : State} (h : s.indexSum x ≤ 0xFFF) :
    exec (.addIVx x) s = writeIndex s (BitVec.ofNat 16 (s.indexSum x)) := if_pos (Nat.lt_succ_of_le h)

theorem exec_addIVx_of_gt {x : Reg} {s : State} (h : 0xFFF < s.indexSum x) :
    exec (.addIVx x) s = .next (s.enterFault .invalidAddress (BitVec.ofNat 16 (s.indexSum x))) :=
  if_neg (Nat.not_lt.2 h)

/-- Settles O28, on the two sides of the bound; a sum within it fits in 16 bits. -/
theorem addIndexStaysInMemory : Obligations.AddIndexStaysInMemory := by
  refine fun x s => ⟨fun h => ?_, exec_addIVx_of_gt⟩
  have hlt : s.indexSum x < 2 ^ 16 := Nat.lt_of_le_of_lt h (by decide)
  rw [exec_addIVx_of_le h]
  exact answers_writeIndex (Nat.mod_eq_of_lt hlt)

/-! ### The checked store -/

/-- Where the range can be written, the bytes are stored from `I` upwards, and no other byte and no other part of the
state changes but `PC`. -/
theorem answers_storeAtI {s : State} {bs : List Byte} (hlo : 0x200 ≤ s.i.toNat)
    (hhi : s.i.toNat + bs.length ≤ 0x1000) : Answers (storeAtI s bs) fun t =>
      (∀ k (hk : k < bs.length), t.mem.read (s.i.toNat + k) = bs[k]) ∧
      (∀ b, b < s.i.toNat ∨ s.i.toNat + bs.length ≤ b → t.mem.read b = s.mem.read b) ∧ t.pc = s.pc + 2 ∧
      t = { s with mem := t.mem, pc := t.pc } := by
  have hok : ∀ b, s.i.toNat ≤ b → b < s.i.toNat + bs.length → writable b = true := fun b h1 h2 =>
    writable_iff.2 (by omega)
  exact ⟨_, checkedRange_ok s _ hok, fun k hk => read_writeBytes_inside bs s.mem s.base hk,
    fun b hb => read_writeBytes_outside bs s.mem hb, rfl, rfl⟩

/-- Settles O29: the three bytes stored are the digits, hundreds first. -/
theorem bcdStoresThreeDigits : Obligations.BcdStoresThreeDigits := by
  intro x s hlo hhi
  have hv := (s.reg x).isLt
  refine answers_imp (answers_storeAtI (bs := bcdDigits (s.reg x)) hlo (by simp [bcdDigits]; omega))
    fun t ⟨hin, hout, hrest⟩ => ⟨⟨(s.reg x).toNat / 100, (s.reg x).toNat / 10 % 10, (s.reg x).toNat % 10, ?_⟩,
      fun b hb => hout b (by simp [bcdDigits]; omega), hrest⟩
  have hh : t.mem.read s.i.toNat = _ := hin 0 (by simp [bcdDigits])
  have he := hin 1 (by simp [bcdDigits])
  have hu := hin 2 (by simp [bcdDigits])
  rw [hh, he, hu]
  simp only [bcdDigits, List.getElem_cons_zero, List.getElem_cons_succ, BitVec.toNat_ofNat]
  omega

theorem answers_ldMemVx {x : Reg} {s : State} (hlo : 0x200 ≤ s.i.toNat) (hhi : s.i.toNat + x.val ≤ 0xFFF) :
    Answers (exec (.ldMemVx x) s) fun t =>
      (∀ r : Reg, r ≤ x → t.mem.read (s.i.toNat + r.val) = s.reg r) ∧
      (∀ b, b < s.i.toNat ∨ s.i.toNat + x.val < b → t.mem.read b = s.mem.read b) ∧ t.pc = s.pc + 2 ∧
      t = { s with mem := t.mem, pc := t.pc } := by
  have hlen : ((regsUpTo x).map s.reg).length = x.val + 1 := by simp
  refine answers_imp (answers_storeAtI hlo (by omega)) fun t ⟨hin, hout, hrest⟩ =>
    ⟨fun r hr => ?_, fun b hb => hout b (by omega), hrest⟩
  have hr' : r.val < ((regsUpTo x).map s.reg).length := by rw [hlen]; exact Nat.lt_succ_of_le hr
  rw [hin r.val hr', List.getElem_map, getElem_regsUpTo]

/-- Settles O30: byte `r` of those stored is register `r`. -/
theorem blockStoreWritesRegisters : Obligations.BlockStoreWritesRegisters := fun _ _ => answers_ldMemVx

/-- Settles O33: a fetch reads the same bytes as a data read. -/
theorem storedBytesAreFetched : Obligations.StoredBytesAreFetched := fun x s hlo hhi =>
  answers_imp (answers_ldMemVx hlo hhi) fun t ⟨hin, _⟩ q r hr hrq hpc => by
    have hq : q ≤ x := le_trans (Fin.le_def.2 (by omega)) hr
    rw [State.fetchWord, wordOfBytes_toNat, hpc, Nat.add_assoc, ← hrq, hin q hq, hin r hr]

/-! ### The checked load -/

/-- Settles O31: the load of the block, its range being one that can be read. -/
theorem blockLoadReadsRegisters : Obligations.BlockLoadReadsRegisters := by
  intro x s hhi
  have hok : ∀ b, s.i.toNat ≤ b → b < s.i.toNat + (x.val + 1) → readable b = true := fun b _ h2 =>
    readable_iff.2 (by omega)
  refine ⟨_, (checkedRange_ok s _ hok).trans (finish_loadRegs s (regsUpTo x)), fun r hr => ?_, fun r hr => ?_, rfl,
    fun _ => rfl, rfl⟩
  · exact (reg_loadRegs s (regsUpTo x) r).trans (if_pos (mem_regsUpTo.2 hr))
  · exact (reg_loadRegs s (regsUpTo x) r).trans (if_neg (mt mem_regsUpTo.1 (not_le.2 hr)))

/-! ### Ranges with an address that fails (R38) -/

theorem checkedRange_of_isLowest {bad : Nat → Prop} {ok : Nat → Bool} {a k b : Nat} (s : State)
    (e : Host.Outcome State Fault Refusal) (hbad : ∀ c, ok c = true ↔ ¬bad c) (h : IsLowest bad a k b) :
    checkedRange s ok a k e = .next (s.enterFault .invalidAddress (BitVec.ofNat 16 b)) := by
  have hsame : bad = fun c => ok c = false := by
    funext c
    rw [← Bool.not_eq_true, hbad, not_not]
  exact checkedRange_fault s e (hsame ▸ h)

theorem readable_iff_not_unreadable (a : Nat) : readable a = true ↔ ¬UnreadableAddress a := by
  rw [readable_iff, UnreadableAddress, Nat.not_lt]

theorem writable_iff_not_unwritable (a : Nat) : writable a = true ↔ ¬UnwritableAddress a := by
  rw [writable_iff, UnwritableAddress, not_or, Nat.not_lt, Nat.not_lt]

/-- Settles O32: each of the four checks its range before it has any effect. -/
theorem transferFaultsOnLowestAddress : Obligations.TransferFaultsOnLowestAddress := by
  refine fun x y n b s => ⟨fun h => ?_, fun h => ?_, fun h => ?_, fun h => ?_⟩
  · exact checkedRange_of_isLowest s _ writable_iff_not_unwritable h
  · have hlen : ((regsUpTo x).map s.reg).length = x.val + 1 := by simp
    exact checkedRange_of_isLowest s _ writable_iff_not_unwritable (hlen ▸ h)
  · exact checkedRange_of_isLowest s _ readable_iff_not_unreadable h
  · exact checkedRange_of_isLowest s _ readable_iff_not_unreadable h

end Sys2Proof
end

section
/-! PROOFS. The display: the pixels of a cleared screen, of a draw, and of a second draw at one place (R100 to
R102). -/

namespace Sys2Proof

open Machine

/-- Settles O34: the blank screen, and the frame of the instruction. -/
theorem clearUnsetsEveryPixel : Obligations.ClearUnsetsEveryPixel := fun _ =>
  ⟨_, rfl, pixel_blankScreen, rfl, rfl, fun _ => rfl, rfl⟩

/-- Two framebuffers with the same pixels are equal. -/
theorem framebuffer_ext {f g : Framebuffer} (h : ∀ px py, pixel f px py = pixel g px py) : f = g :=
  Vector.ext fun y hy => BitVec.eq_of_getLsbD_eq fun x hx => h ⟨x, hx⟩ ⟨y, hy⟩

theorem flag_eq_one_iff {c : Bool} : flag c = 1#8 ↔ c = true := by
  cases c <;> decide

/-! ### One draw (R101) -/

/-- The screen and the collision after the sprite of `n` rows at `I` is drawn at `(Vx, Vy)`. -/
def spriteCanvas (s : State) (x y : Reg) (n : Nat) : Canvas :=
  drawSprite s.mem s.base (s.reg x).toNat (s.reg y).toNat n s.fb

/-- The state a draw answers: the screen, `VF`, a new frame, and `PC` past the instruction. -/
def afterDraw (s : State) (x y : Reg) (n : Nat) : State := (s.drawn (spriteCanvas s x y n)).complete .continue

theorem exec_drwVxVyN_of_readable {x y : Reg} {n : Nat} {s : State} (h : n = 0 ∨ s.i.toNat + n ≤ 0x1000) :
    exec (.drwVxVyN x y n) s = .next (afterDraw s x y n) :=
  checkedRange_ok (a := s.i.toNat) s _ fun b _ h2 => readable_iff.2 (by omega)

section
variable {x y : Reg} {n : Nat} {s : State}

theorem pixel_spriteCanvas_of_covers (hn : n < 16) {px : Fin 64} {py : Fin 32} (h : SpriteCovers s x y n px py) :
    pixel (spriteCanvas s x y n).1 px py = !pixel s.fb px py := by
  have hnodup := spritePositions_nodup s.mem s.base (s.reg x).toNat (s.reg y).toNat (n := n) (by omega)
  rw [spriteCanvas, drawSprite_eq, (foldl_toggleAt _ _ hnodup).1,
    decide_eq_true ((mem_spritePositions s x y n px py).2 h), Bool.xor_true]

theorem pixel_spriteCanvas_of_not_covers (hn : n < 16) {px : Fin 64} {py : Fin 32}
    (h : ¬SpriteCovers s x y n px py) : pixel (spriteCanvas s x y n).1 px py = pixel s.fb px py := by
  have hnodup := spritePositions_nodup s.mem s.base (s.reg x).toNat (s.reg y).toNat (n := n) (by omega)
  rw [spriteCanvas, drawSprite_eq, (foldl_toggleAt _ _ hnodup).1,
    decide_eq_false (mt (mem_spritePositions s x y n px py).1 h), Bool.xor_false]

/-- The collision is of the whole draw: it asks whether a pixel under a set bit was set before the draw. -/
theorem collision_iff (hn : n < 16) : (spriteCanvas s x y n).2 = true ↔
    ∃ px py, SpriteCovers s x y n px py ∧ pixel s.fb px py = true := by
  have hnodup := spritePositions_nodup s.mem s.base (s.reg x).toNat (s.reg y).toNat (n := n) (by omega)
  rw [spriteCanvas, drawSprite_eq, (foldl_toggleAt _ _ hnodup).2]
  simp [mem_spritePositions]

theorem afterDraw_flag : (afterDraw s x y n).reg regF = flag (spriteCanvas s x y n).2 := by
  rw [afterDraw, complete_reg, drawn_reg, if_pos rfl]

theorem afterDraw_reg {r : Reg} (hr : r ≠ regF) : (afterDraw s x y n).reg r = s.reg r := by
  rw [afterDraw, complete_reg, drawn_reg, if_neg hr]

end

/-- Settles O35: the sprite's positions are all different, so each is flipped once. -/
theorem drawFlipsTheSpritesPixels : Obligations.DrawFlipsTheSpritesPixels := by
  refine fun x y n s hn hread => ⟨_, exec_drwVxVyN_of_readable hread, fun px py => ⟨?_, ?_⟩, fun h => ?_,
    fun h => ?_, rfl, rfl, fun r hr => afterDraw_reg hr, fun _ => rfl, rfl⟩
  · exact pixel_spriteCanvas_of_covers hn
  · exact pixel_spriteCanvas_of_not_covers hn
  · rw [afterDraw_flag, (collision_iff hn).2 h]; rfl
  · rw [afterDraw_flag, Bool.eq_false_of_not_eq_true (mt (collision_iff hn).1 h)]; rfl

/-! ### Two draws at one place -/

/-- A draw leaves the sprite where it is, unless a coordinate is held in the flag register. -/
theorem spriteCovers_afterDraw {x y : Reg} (hx : x ≠ regF) (hy : y ≠ regF) (s : State) (n : Nat) (px : Fin 64)
    (py : Fin 32) : SpriteCovers (afterDraw s x y n) x y n px py ↔ SpriteCovers s x y n px py := by
  rw [SpriteCovers, afterDraw_reg hx, afterDraw_reg hy]
  rfl

/-- Settles O36: the second draw flips the same pixels back, and finds set those that the first one set. -/
theorem drawingTwiceRestoresTheScreen : Obligations.DrawingTwiceRestoresTheScreen := by
  intro x y n s t hn hread hx hy ht
  cases (exec_drwVxVyN_of_readable hread).symm.trans ht
  refine ⟨_, exec_drwVxVyN_of_readable hread, framebuffer_ext fun px py => ?_, rfl, ?_⟩
  · by_cases hc : SpriteCovers s x y n px py
    · exact (pixel_spriteCanvas_of_covers hn ((spriteCovers_afterDraw hx hy s n px py).2 hc)).trans
        ((congrArg not (pixel_spriteCanvas_of_covers hn hc)).trans (Bool.not_not _))
    · exact (pixel_spriteCanvas_of_not_covers hn (mt (spriteCovers_afterDraw hx hy s n px py).1 hc)).trans
        (pixel_spriteCanvas_of_not_covers hn hc)
  · rw [afterDraw_flag, flag_eq_one_iff, collision_iff hn]
    refine exists_congr fun px => exists_congr fun py => ?_
    rw [spriteCovers_afterDraw hx hy]
    refine and_congr_right fun hc => ?_
    rw [show pixel (afterDraw s x y n).fb px py = _ from pixel_spriteCanvas_of_covers hn hc, Bool.not_eq_true']

end Sys2Proof
end

section
/-! PROOFS. The timers and the keypad: the timer instructions, the tick, `Fx0A` and the wait step (R103 to R109,
R121). -/

namespace Sys2Proof

open Machine

/-! ### Timers -/

/-- Settles O37: a register write of `DT`, and the two writes of a timer. -/
theorem timerInstructionsCopy : Obligations.TimerInstructionsCopy := fun x s =>
  ⟨answers_writeReg s x s.dt, ⟨_, rfl, rfl, rfl, fun _ => rfl, rfl⟩, ⟨_, rfl, rfl, rfl, fun _ => rfl, rfl⟩⟩

theorem isActive_iff {r : RunState} : r.isActive = true ↔ r = .running ∨ r = .waitKey := by
  cases r <;> decide

theorem isActive_eq_false_iff {r : RunState} : r.isActive = false ↔ r = .halted ∨ r = .stopped := by
  cases r <;> decide

theorem tick_of_active {s : State} (h : s.run.isActive = true) :
    s.tick = { s with dt := countDown s.dt, st := countDown s.st } := if_pos h

theorem tick_of_inactive {s : State} (h : s.run.isActive = false) : s.tick = s := if_neg (by simp [h])

/-- Counting down is subtraction of natural numbers: 0 stays 0. -/
theorem countDown_toNat (b : Byte) : (countDown b).toNat = b.toNat - 1 := by
  by_cases h : b = 0#8
  · subst h
    rfl
  · have hb := b.isLt
    have hpos : b.toNat ≠ 0 := fun h0 => h (BitVec.eq_of_toNat_eq h0)
    rw [countDown, if_neg h, BitVec.toNat_sub, show (1#8).toNat = 1 from rfl]
    omega

theorem tick_timers {s : State} (h : s.run.isActive = true) :
    s.tick.dt.toNat = s.dt.toNat - 1 ∧ s.tick.st.toNat = s.st.toNat - 1 := by
  rw [tick_of_active h]
  exact ⟨countDown_toNat s.dt, countDown_toNat s.st⟩

theorem tick_frame (s : State) : s.tick = { s with dt := s.tick.dt, st := s.tick.st } := by
  unfold State.tick
  split <;> rfl

/-- Settles O38: the tick counts down where the engine is active, and is the state itself where it is not. -/
theorem tickCountsBothTimersDown : Obligations.TickCountsBothTimersDown := by
  intro s rest h
  refine ⟨_, step_of_schedule h, fun hrun => tick_timers (isActive_iff.2 hrun), fun hrun => ?_, ?_⟩
  · rw [tick_of_inactive (s := { s with schedule := rest }) (isActive_eq_false_iff.2 hrun)]
    exact ⟨rfl, rfl⟩
  · rw [tick_frame]

theorem iterate_tick_run (k : Nat) (s : State) : (State.tick^[k] s).run = s.run := by
  induction k with
  | zero => rfl
  | succ k ih => rw [Function.iterate_succ_apply', tick_run, ih]

/-- Settles O39, by induction on the number of ticks: a tick leaves the engine active. -/
theorem ticksReachZeroAndStay : Obligations.TicksReachZeroAndStay := by
  intro k s hrun
  induction k with
  | zero => exact ⟨rfl, rfl⟩
  | succ k ih =>
    obtain ⟨hdt, hst⟩ := tick_timers (s := State.tick^[k] s) (by rw [iterate_tick_run]; exact isActive_iff.2 hrun)
    rw [Function.iterate_succ_apply', hdt, hst, ih.1, ih.2]
    exact ⟨Nat.sub_sub _ _ _, Nat.sub_sub _ _ _⟩

/-! ### Waiting for a key (R108, R109) -/

/-- Settles O41: the state that `Fx0A` answers. -/
theorem keyWaitSuspends : Obligations.KeyWaitSuspends := fun _ _ =>
  ⟨_, rfl, rfl, rfl, rfl, rfl, fun _ => rfl, rfl⟩

theorem newKey_iff {s : State} {k : Fin 16} :
    s.newKeys.getLsbD k.val = true ↔ s.keys.getLsbD k.val = true ∧ s.prevKeys.getLsbD k.val = false := by
  rw [newKeys_getLsbD, Bool.and_eq_true, Bool.not_eq_true']

theorem not_newKey_iff {s : State} {k : Fin 16} :
    s.newKeys.getLsbD k.val = false ↔ (s.keys.getLsbD k.val = true → s.prevKeys.getLsbD k.val = true) := by
  rw [← Bool.not_eq_true, newKey_iff, not_and, Bool.not_eq_false]

/-- The key found is the only one that is set with every lower one clear. -/
theorem lowestKey_of_lowest {ks : Word} {k : Fin 16} (hk : ks.getLsbD k.val = true)
    (hlow : ∀ j : Fin 16, j < k → ks.getLsbD j.val = false) : lowestKey ks = some k := by
  cases hfound : lowestKey ks with
  | none => cases hk.symm.trans (lowestKey_eq_none.1 hfound k)
  | some j =>
    obtain ⟨hj, hlow'⟩ := lowestKey_eq_some hfound
    rcases lt_trichotomy j k with hlt | rfl | hgt
    · cases hj.symm.trans (hlow j hlt)
    · rfl
    · cases hk.symm.trans (hlow' k hgt)

theorem waitSample_of_key {s : State} {k : Fin 16} (h : lowestKey s.newKeys = some k) :
    s.waitSample = { s.setReg s.waitX (BitVec.ofNat 8 k.val) with pc := s.pc + 2, run := .running } := by
  simp only [State.waitSample, h]

theorem waitSample_of_no_key {s : State} (h : lowestKey s.newKeys = none) :
    s.waitSample = { s with prevKeys := s.keys } := by
  simp only [State.waitSample, h]

theorem answers_waitSample {s : State} {k : Fin 16} (h : lowestKey s.newKeys = some k) :
    Answers (.next s.waitSample) fun t => (t.reg s.waitX).toNat = k.val ∧ t.run = .running ∧ t.pc = s.pc + 2 ∧
      (∀ r, r ≠ s.waitX → t.reg r = s.reg r) ∧ SameMemory s t ∧ t = { s with v := t.v, pc := t.pc, run := t.run } := by
  refine ⟨_, congrArg _ (waitSample_of_key h), ?_, rfl, rfl, fun r hr => reg_setReg_other s _ hr, fun _ => rfl, rfl⟩
  have hreg := reg_setReg_same s s.waitX (BitVec.ofNat 8 k.val)
  refine (congrArg BitVec.toNat hreg).trans (Nat.mod_eq_of_lt (by omega))

/-- Settles O42: the keypad's new keys either have the lowest one that is named, or are none. -/
theorem waitStepTakesTheLowestNewKey : Obligations.WaitStepTakesTheLowestNewKey := by
  intro s hrun hsched
  have hstep : step s = .next s.waitSample := (step_of_no_schedule hsched).trans (engineStep_waitKey hrun)
  refine ⟨fun k hk hprev hlow => ?_, fun hnone => ?_⟩
  · rw [hstep]
    exact answers_waitSample
      (lowestKey_of_lowest (newKey_iff.2 ⟨hk, hprev⟩) fun j hj => not_newKey_iff.2 (hlow j hj))
  · rw [hstep, waitSample_of_no_key (lowestKey_eq_none.2 fun k => not_newKey_iff.2 (hnone k))]

/-- A wait step that ends the wait has found a new key. -/
theorem newKey_of_waitSample_run {s : State} (hrun : s.run = .waitKey) (h : s.waitSample.run ≠ .waitKey) :
    ∃ k : Fin 16, s.keys.getLsbD k.val = true ∧ s.prevKeys.getLsbD k.val = false := by
  rcases waitSample_cases s with ⟨k, hk, -⟩ | ⟨-, hs⟩
  · exact ⟨k, newKey_iff.1 (lowestKey_eq_some hk).1⟩
  · rw [hs] at h
    exact absurd hrun h

end Sys2Proof
end

section
/-! PROOFS. The step: the engine's turn, with its fetch and decode, and the turn of each other agent (R43, R44, R63 to
R68, R115, R117, R118, R121, R124, R127). -/

namespace Sys2Proof

open Machine

/-! ### The engine's turn -/

/-- Settles O58: the engine's turn, listed or not. -/
theorem engineTurnIsTheEngineStep : Obligations.EngineTurnIsTheEngineStep := fun _ =>
  ⟨step_of_no_schedule, fun _ => step_of_schedule⟩

theorem engineStep_of_decode {s : State} {i : Instr} (hrun : s.run = .running) (hp : fetchable s.pc = true)
    (hd : decode s.fetchWord = .ok i) : engineStep s = exec i s :=
  (engineStep_running hrun).trans (runInstruction_of_decode hp hd)

/-- Settles O9: taking a turn from the schedule changes neither `PC` nor the word there. -/
theorem stepRunsTheDecodedInstruction : Obligations.StepRunsTheDecodedInstruction := by
  intro s i hrun heven hle hd
  have hp : fetchable s.pc = true := fetchable_iff.2 ⟨heven, hle⟩
  exact ⟨fun h => (step_of_no_schedule h).trans (engineStep_of_decode hrun hp hd),
    fun rest h => (step_of_schedule h).trans (engineStep_of_decode (s := { s with schedule := rest }) hrun hp hd)⟩

theorem runInstruction_of_not_fetchable {s : State} (h : ¬fetchable s.pc = true) :
    runInstruction s = .next (s.enterFault .invalidAddress s.pc) := if_neg h

/-- Settles O11: such a `PC` fails the check of the fetch. -/
theorem badPcFaultsAtFetch : Obligations.BadPcFaultsAtFetch := by
  intro s hrun hsched hpc
  have hp : ¬fetchable s.pc = true := by
    rw [fetchable_iff]
    omega
  exact (step_of_no_schedule hsched).trans ((engineStep_running hrun).trans (runInstruction_of_not_fetchable hp))

/-- Where the engine has no step, its run state is final and the outcome says which. -/
theorem engineStep_stops (s : State) : (∃ t, engineStep s = .next t) ∨
    (engineStep s = .fault .engineHalted ∧ s.run = .halted) ∨
    (engineStep s = .fault .engineStopped ∧ s.run = .stopped) := by
  cases h : s.run with
  | running => exact .inl ((engineStep_answers_iff s).2 (.inl h))
  | waitKey => exact .inl ((engineStep_answers_iff s).2 (.inr h))
  | halted => exact .inr (.inl ⟨engineStep_halted h, rfl⟩)
  | stopped => exact .inr (.inr ⟨engineStep_stopped h, rfl⟩)

/-- A transition stops only on the engine's turn in a final state, or on a launch of a ROM that is too large. -/
theorem transition_stops (e : Event) (s : State) : (∃ t, transition e s = .next t) ∨
    (transition e s = .fault .engineHalted ∧ s.run = .halted ∧ e = .engine) ∨
    (transition e s = .fault .engineStopped ∧ s.run = .stopped ∧ e = .engine) ∨
    (transition e s = .fault .romTooLarge ∧ ∃ rom, e = .launch rom ∧ 3584 < rom.length) := by
  cases e with
  | engine =>
    rcases engineStep_stops s with h | ⟨h, hrun⟩ | ⟨h, hrun⟩
    · exact .inl h
    · exact .inr (.inl ⟨h, hrun, rfl⟩)
    · exact .inr (.inr (.inl ⟨h, hrun, rfl⟩))
  | tick | setKey | cancel => exact .inl ⟨_, rfl⟩
  | launch rom =>
    rcases Nat.lt_or_ge 3584 rom.length with hlen | hlen
    · exact .inr (.inr (.inr ⟨launch_of_gt _ hlen, rom, rfl, hlen⟩))
    · exact .inl ⟨_, launch_of_le _ hlen⟩

/-- Settles O12: a step is a transition, whose turn the schedule says. -/
theorem stepStopsOnlyWithoutATransition : Obligations.StepStopsOnlyWithoutATransition := by
  intro s
  rw [step_eq_transition]
  rcases transition_stops (turn s) (taken s) with h | ⟨h, hrun, he⟩ | ⟨h, hrun, he⟩ | ⟨h, rom, he, hlen⟩
  · exact .inl h
  · exact .inr (.inl ⟨h, hrun, schedule_of_turn_engine he⟩)
  · exact .inr (.inr (.inl ⟨h, hrun, schedule_of_turn_engine he⟩))
  · exact .inr (.inr (.inr ⟨h, rom, head_of_turn he (by simp), hlen⟩))

/-- An instruction step that halts the engine has entered a fault. -/
theorem enterFault_of_halting {s t : State} (hrun : s.run = .running) (h : engineStep s = .next t)
    (hhalt : t.run = .halted) : ∃ k w, k ≠ .noFault ∧ t = s.enterFault k w := by
  rw [engineStep_running hrun] at h
  rcases runInstruction_cases s with ⟨-, hr⟩ | ⟨_, -, -, hr⟩ | ⟨i, -, -, hr⟩
  · cases hr.symm.trans h
    exact ⟨_, _, by decide, rfl⟩
  · cases hr.symm.trans h
    exact ⟨_, _, by decide, rfl⟩
  · rcases exec_cases (hr ▸ h) with hf | hc
    · exact hf
    · rcases hc.run with hr | hr
      · exact absurd (hrun.symm.trans (hr.symm.trans hhalt)) (by decide)
      · exact absurd (hr.symm.trans hhalt) (by decide)

/-- Settles O44: what halts the engine is the entry of a fault, which writes the run state and the record alone. -/
theorem faultIsPrecise : Obligations.FaultIsPrecise := by
  intro s t hrun h hhalt
  obtain ⟨k, w, hk, rfl⟩ := enterFault_of_halting hrun h hhalt
  exact ⟨hk, rfl, fun _ => rfl, rfl⟩

/-! ### Leaving the wait, and the final states -/

/-- A tick and a key write leave `run`, and the engine's turn is the wait step. -/
theorem transition_ends_wait {e : Event} {s t : State} (hrun : s.run = .waitKey) (h : transition e s = .next t)
    (hne : t.run ≠ .waitKey) :
    (e = .engine ∧ ∃ k : Fin 16, s.keys.getLsbD k.val = true ∧ s.prevKeys.getLsbD k.val = false) ∨
    e = .cancel ∨ ∃ rom, e = .launch rom := by
  cases e with
  | engine =>
    cases (engineStep_waitKey hrun).symm.trans h
    exact .inl ⟨rfl, newKey_of_waitSample_run hrun hne⟩
  | tick =>
    cases h
    exact absurd ((tick_run s).trans hrun) hne
  | setKey =>
    cases h
    exact absurd hrun hne
  | cancel => exact .inr (.inl rfl)
  | launch rom => exact .inr (.inr ⟨rom, rfl⟩)

/-- Settles O43, by the transition whose turn it is. -/
theorem waitEndsOnlyByKeyOrHost : Obligations.WaitEndsOnlyByKeyOrHost := by
  intro s t hrun h hne
  rcases transition_ends_wait (s := taken s) hrun (step_eq_transition s ▸ h) hne with ⟨he, hk⟩ | he | ⟨rom, he⟩
  · exact .inl ⟨schedule_of_turn_engine he, hk⟩
  · exact .inr (.inl (head_of_turn he (by simp)))
  · exact .inr (.inr ⟨rom, head_of_turn he (by simp)⟩)

theorem cancel_of_active {s : State} (h : s.run.isActive = true) : s.cancel = { s with run := .stopped } := if_pos h

theorem cancel_of_inactive {s : State} (h : s.run.isActive = false) : s.cancel = s := if_neg (by simp [h])

theorem engineStep_ne_next_of_inactive {s t : State} (h : s.run.isActive = false) : engineStep s ≠ .next t := fun ht =>
  absurd (isActive_iff.2 ((engineStep_answers_iff s).1 ⟨t, ht⟩)) (by simp [h])

/-- In a final state the engine has no step, a tick and a cancel change nothing, and a key write the keypad only. -/
theorem transition_of_inactive {e : Event} {s t : State} (hrun : s.run.isActive = false)
    (h : transition e s = .next t) : (∃ rom, e = .launch rom) ∨ t = { s with keys := t.keys } := by
  cases e with
  | engine => exact absurd h (engineStep_ne_next_of_inactive hrun)
  | tick =>
    cases (congrArg Host.Outcome.next (tick_of_inactive hrun)).symm.trans h
    exact .inr rfl
  | setKey =>
    cases h
    exact .inr rfl
  | cancel =>
    cases (congrArg Host.Outcome.next (cancel_of_inactive hrun)).symm.trans h
    exact .inr rfl
  | launch rom => exact .inl ⟨rom, rfl⟩

/-- Settles O46, by the transition whose turn it is. -/
theorem finalStatesStayUntilLaunch : Obligations.FinalStatesStayUntilLaunch := by
  intro s t hrun h
  have hfinal : (taken s).run.isActive = false := isActive_eq_false_iff.2 hrun
  rcases transition_of_inactive hfinal (step_eq_transition s ▸ h) with ⟨rom, he⟩ | ht
  · exact .inl ⟨rom, head_of_turn he (by simp)⟩
  · exact .inr ht

/-! ### Cancel and keys -/

/-- Settles O47: the cancel stops where the engine is active, and is the state itself where it is not. -/
theorem cancelStopsAnActiveEngine : Obligations.CancelStopsAnActiveEngine := by
  intro s rest h
  rw [step_of_schedule h]
  exact ⟨fun hrun => congrArg _ (cancel_of_active (s := { s with schedule := rest }) (isActive_iff.2 hrun)),
    fun hrun => congrArg _ (cancel_of_inactive (s := { s with schedule := rest }) (isActive_eq_false_iff.2 hrun))⟩

theorem keys_setPressed (s : State) (key k : Fin 16) (pressed : Bool) :
    (s.setPressed key pressed).keys.getLsbD k.val = if k = key then pressed else s.keys.getLsbD k.val := by
  have hbit : (BitVec.twoPow 16 key.val).getLsbD k.val = decide (k = key) := by
    rw [BitVec.getLsbD_twoPow, decide_eq_true key.isLt, Bool.true_and]
    exact decide_eq_decide.2 ⟨fun h => Fin.ext h.symm, fun h => h ▸ rfl⟩
  cases pressed with
  | true =>
    rw [State.setPressed, if_pos rfl, BitVec.getLsbD_or, hbit]
    by_cases h : k = key <;> simp [h]
  | false =>
    rw [State.setPressed, if_neg Bool.false_ne_true, BitVec.getLsbD_and, BitVec.getLsbD_not, hbit]
    by_cases h : k = key <;> simp [h]

/-- Settles O48, bit by bit. -/
theorem keyWriteSetsOneBit : Obligations.KeyWriteSetsOneBit := by
  intro key pressed s rest h
  refine ⟨_, step_of_schedule h, ?_, fun k hk => ?_, rfl⟩
  · rw [keys_setPressed, if_pos rfl]
  · rw [keys_setPressed, if_neg hk]

/-- The engine reads the keypad only. -/
theorem engineStep_keys {s t : State} (h : engineStep s = .next t) : t.keys = s.keys := by
  rcases (engineStep_answers_iff s).1 ⟨t, h⟩ with hrun | hrun
  · rw [engineStep_running hrun] at h
    rcases runInstruction_cases s with ⟨-, hr⟩ | ⟨_, -, -, hr⟩ | ⟨i, -, -, hr⟩
    · cases hr.symm.trans h
      rfl
    · cases hr.symm.trans h
      rfl
    · exact (exec_effect (hr ▸ h)).keys_eq
  · cases (engineStep_waitKey hrun).symm.trans h
    exact waitSample_keys s

/-- Of the agents, the engine, the tick and the cancel leave the keypad. -/
theorem transition_keys {e : Event} {s t : State} (h : transition e s = .next t) (hne : t.keys ≠ s.keys) :
    (∃ key pressed, e = .setKey key pressed) ∨ ∃ rom, e = .launch rom := by
  cases e with
  | engine => exact absurd (engineStep_keys h) hne
  | tick =>
    cases h
    exact absurd (tick_keys s) hne
  | setKey key pressed => exact .inl ⟨key, pressed, rfl⟩
  | cancel =>
    cases h
    exact absurd (cancel_keys s) hne
  | launch rom => exact .inr ⟨rom, rfl⟩

/-- Settles O49, by the transition whose turn it is. -/
theorem onlyTheHostWritesKeys : Obligations.OnlyTheHostWritesKeys := by
  intro s t h hne
  rcases transition_keys (s := taken s) (step_eq_transition s ▸ h) hne with ⟨key, pressed, he⟩ | ⟨rom, he⟩
  · exact .inl ⟨key, pressed, head_of_turn he (by simp)⟩
  · exact .inr ⟨rom, head_of_turn he (by simp)⟩

/-! ### Launch, reset and the ports -/

/-- Settles O50: the launch state is the state at reset with the ROM written from 0x200. -/
theorem launchLoadsTheRom : Obligations.LaunchLoadsTheRom := by
  refine fun rom s rest h => ⟨fun hlen => ?_, fun hlen => (step_of_schedule h).trans (launch_of_gt _ hlen)⟩
  exact ⟨_, (step_of_schedule h).trans (launch_of_le _ hlen), fun k hk => read_writeBytes_inside rom _ 0x200 hk,
    fun a ha => read_writeBytes_outside rom _ ha, rfl⟩

theorem fbAddress_toNat (px : Fin 64) (py : Fin 32) :
    (BitVec.ofNat 11 (py.val * 64 + px.val)).toNat = py.val * 64 + px.val := by
  rw [BitVec.toNat_ofNat]
  omega

/-- Settles O51: the low six bits of the port's address are the column, and the next five the row. -/
theorem portsShowTheState : Obligations.PortsShowTheState := by
  refine ⟨fun s px py => ?_, fun s => ⟨rfl, bne_iff_ne⟩, by decide⟩
  have hx : ((BitVec.ofNat 11 (py.val * 64 + px.val)).extractLsb' 0 6).toFin = px := Fin.ext (by
    show BitVec.toNat _ = _
    rw [BitVec.extractLsb'_toNat, fbAddress_toNat, Nat.shiftRight_eq_div_pow]
    omega)
  have hy : ((BitVec.ofNat 11 (py.val * 64 + px.val)).extractLsb' 6 5).toFin = py := Fin.ext (by
    show BitVec.toNat _ = _
    rw [BitVec.extractLsb'_toNat, fbAddress_toNat, Nat.shiftRight_eq_div_pow]
    omega)
  rw [State.fbData, hx, hy]

theorem read_reset (a : Nat) : State.reset.mem.read a = resetByte a := rfl

/-- Behind the 80 bytes of the font, the RAM reads 0 at reset. -/
theorem resetByte_of_ge {a : Nat} (h : 80 ≤ a) : resetByte a = 0#8 := by
  rw [resetByte, fontBase, if_pos (Nat.zero_le a)]
  exact List.getD_eq_default _ _ h

/-- Settles O52: the fields of the state at reset, and the RAM's bytes there. -/
theorem resetGivesTheStatedValues : Obligations.ResetGivesTheStatedValues :=
  ⟨fun r => Vector.getElem_replicate r.isLt, rfl, rfl, rfl, reset_stack, rfl, rfl, pixel_blankScreen, rfl, rfl, rfl,
    rfl, rfl, rfl, rfl, by decide, fun _ => resetByte_of_ge⟩

end Sys2Proof
end

section
/-! PROOFS. What cannot be observed: a relation between states that every part of a step keeps is kept by every step;
the differences in an output, and in stack slots that are not occupied, are such relations (R19, R21, R24). -/

namespace Sys2Proof

open Machine

/-- A relation of states that fixes all that a transition tests, and that the changes of a transition keep. -/
structure Unobservable (R : State → State → Prop) : Prop where
  refl : ∀ s, R s s
  run : ∀ {s t}, R s t → t.run = s.run
  pc : ∀ {s t}, R s t → t.pc = s.pc
  mem : ∀ {s t}, R s t → t.mem = s.mem
  draws : ∀ {s t}, R s t → t.draws = s.draws
  schedule : ∀ {s t}, R s t → t.schedule = s.schedule
  taken : ∀ {s t}, R s t → R (taken s) (taken t)
  enterFault : ∀ {s t} k w, R s t → R (s.enterFault k w) (t.enterFault k w)
  exec : ∀ {s t} i, R s t → OutcomesRelated R (exec i s) (exec i t)
  waitSample : ∀ {s t}, R s t → R s.waitSample t.waitSample
  tick : ∀ {s t}, R s t → R s.tick t.tick
  setPressed : ∀ {s t} k p, R s t → R (s.setPressed k p) (t.setPressed k p)
  cancel : ∀ {s t}, R s t → R s.cancel t.cancel

section
variable {R : State → State → Prop} {s t : State}

/-- Two checks of one range, whose faults and whose effects are related. -/
theorem checkedRange_related {ok : Nat → Bool} {a k : Nat} {e e' : Host.Outcome State Fault Refusal}
    (hf : ∀ w, R (s.enterFault .invalidAddress w) (t.enterFault .invalidAddress w)) (he : OutcomesRelated R e e') :
    OutcomesRelated R (checkedRange s ok a k e) (checkedRange t ok a k e') := by
  unfold checkedRange
  cases lowestFailing ok a k with
  | none => exact he
  | some b => exact hf _

variable (h : Unobservable R)
include h

theorem Unobservable.runInstruction (hst : R s t) : OutcomesRelated R (runInstruction s) (runInstruction t) := by
  have hw : t.fetchWord = s.fetchWord := fetchWord_congr (h.pc hst) fun a => by rw [h.mem hst]
  unfold Machine.runInstruction
  rw [h.pc hst, hw]
  cases fetchable s.pc with
  | false => exact h.enterFault _ _ hst
  | true =>
    cases decode s.fetchWord with
    | ok i => exact h.exec i hst
    | error => exact h.enterFault _ _ hst

theorem Unobservable.engineStep (hst : R s t) : OutcomesRelated R (engineStep s) (engineStep t) := by
  unfold Machine.engineStep
  rw [h.run hst]
  cases s.run with
  | running => exact h.runInstruction hst
  | waitKey => exact h.waitSample hst
  | halted | stopped => exact rfl

theorem Unobservable.launch (hst : R s t) (rom : List Byte) : OutcomesRelated R (launch rom s) (launch rom t) := by
  unfold Machine.launch
  rw [h.draws hst, h.schedule hst]
  cases launchState rom with
  | ok u => exact h.refl _
  | error => exact rfl

theorem Unobservable.transition (hst : R s t) (e : Event) :
    OutcomesRelated R (transition e s) (transition e t) := by
  cases e with
  | engine => exact h.engineStep hst
  | tick => exact h.tick hst
  | setKey key pressed => exact h.setPressed key pressed hst
  | cancel => exact h.cancel hst
  | launch rom => exact h.launch hst rom

theorem Unobservable.step (hst : R s t) : OutcomesRelated R (step s) (step t) := by
  have hturn : turn t = turn s := by rw [turn, turn, h.schedule hst]
  rw [step_eq_transition, step_eq_transition, hturn]
  exact h.transition (h.taken hst) (turn s)

end

/-- A block load depends on the registers, `I` and memory only. -/
theorem loadRegs_v_congr {s t : State} (rs : List Reg) (hv : t.v = s.v) (hi : t.i = s.i) (hm : t.mem = s.mem) :
    (loadRegs t rs).v = (loadRegs s rs).v := by
  refine Vector.ext fun r hr => (reg_loadRegs t rs ⟨r, hr⟩).trans (Eq.trans ?_ (reg_loadRegs s rs ⟨r, hr⟩).symm)
  rw [State.base, State.base, hi, hm, reg_of_v_eq hv]

/-! ### Outputs and stale slots -/

/-- Values of the two outputs and of the stack that agree with a state's, but in the outputs if `outputs` holds, and in
the slots that are not occupied if `slots` holds. -/
structure Agree (outputs slots : Prop) (s : State) (b : Byte) (n : Nat) (k : Vector Word 16) : Prop where
  outputs : ¬outputs → b = s.st ∧ n = s.frameSeq
  slots : ¬slots → k = s.stack
  occupied : ∀ j : Fin 16, j.val < s.sp.val → k[j] = s.stack[j]

/-- The state with other outputs and another stack. -/
def withHidden (s : State) (b : Byte) (n : Nat) (k : Vector Word 16) : State :=
  { s with st := b, frameSeq := n, stack := k }

/-- The states differ at most in the outputs if `outputs` holds, and in stale slots if `slots` holds. -/
def SameBut (outputs slots : Prop) (s t : State) : Prop := ∃ b n k, Agree outputs slots s b n k ∧ t = withHidden s b n k

section
variable {outputs slots : Prop} {s : State} {b : Byte} {n : Nat} {k : Vector Word 16} (h : Agree outputs slots s b n k)
include h

/-- The difference is carried over to a state with the same outputs, stack and `SP`. -/
theorem Agree.sameBut {u : State} (hu : (u.st, u.frameSeq, u.stack, u.sp) = (s.st, s.frameSeq, s.stack, s.sp)) :
    SameBut outputs slots u (withHidden u b n k) := by
  simp only [Prod.mk.injEq] at hu
  obtain ⟨hst, hseq, hstack, hsp⟩ := hu
  refine ⟨b, n, k, ⟨fun ho => hst ▸ hseq ▸ h.outputs ho, fun hs => hstack ▸ h.slots hs, fun j hj => ?_⟩, rfl⟩
  simp only [hstack]
  exact h.occupied j (hsp ▸ hj)

/-- A new frame leaves the difference of the frame counters as it is. -/
theorem Agree.newFrame {u : State} (hst : u.st = s.st) (hseq : u.frameSeq = s.frameSeq + 1) (hstack : u.stack = s.stack)
    (hsp : u.sp = s.sp) : Agree outputs slots u b (n + 1) k where
  outputs ho := ⟨(h.outputs ho).1.trans hst.symm, by rw [(h.outputs ho).2, hseq]⟩
  slots hs := (h.slots hs).trans hstack.symm
  occupied j hj := by
    rw [hsp] at hj
    simp only [hstack, h.occupied j hj]

/-- A call occupies the slot that it writes, with the same address in both states. -/
theorem Agree.call (target : Word) (hsp : s.sp.val < 16) :
    Agree outputs slots (afterCall s target hsp) b n (k.set s.sp.val s.returnAddress hsp) where
  outputs := h.outputs
  slots hs := by rw [h.slots hs]; rfl
  occupied j hj := by
    have hj' : j.val < s.sp.val + 1 := hj
    by_cases htop : j.val = s.sp.val
    · simp [afterCall, htop]
    · rw [afterCall_stack_other target hsp htop]
      exact (Vector.getElem_set_ne hsp j.isLt (Ne.symm htop)).trans (h.occupied j (by omega))

/-- A return reads the top slot, which is occupied, and leaves fewer occupied. -/
theorem Agree.ret (hsp : 0 < s.sp.val) : Agree outputs slots (afterReturn s hsp) b n k where
  outputs := h.outputs
  slots := h.slots
  occupied j hj := h.occupied j (Nat.lt_of_lt_of_le hj (Nat.sub_le _ _))

theorem Agree.afterReturn_withHidden (hsp : 0 < s.sp.val) :
    afterReturn (withHidden s b n k) hsp = withHidden (afterReturn s hsp) b n k := by
  have htop : k[s.sp.val - 1]'(topSlot_lt hsp) = s.stack[s.sp.val - 1]'(topSlot_lt hsp) :=
    h.occupied ⟨s.sp.val - 1, topSlot_lt hsp⟩ (Nat.sub_lt hsp Nat.one_pos)
  simp only [afterReturn, withHidden, htop]

theorem Agree.sameBut_complete (f : Flow) :
    SameBut outputs slots (s.complete f) ((withHidden s b n k).complete f) := by
  cases f <;> exact h.sameBut rfl

theorem Agree.sameBut_loadRegs (rs : List Reg) : OutcomesRelated (SameBut outputs slots)
    (finish (loadRegs s rs) .continue) (finish (loadRegs (withHidden s b n k) rs) .continue) := by
  rw [finish_loadRegs, finish_loadRegs, loadRegs_v_congr (s := s) (t := withHidden s b n k) rs rfl rfl rfl]
  exact h.sameBut rfl

theorem Agree.exec (i : Instr) :
    OutcomesRelated (SameBut outputs slots) (exec i s) (exec i (withHidden s b n k)) := by
  have hfault (kind : FaultKind) (w : Word) :
      SameBut outputs slots (s.enterFault kind w) ((withHidden s b n k).enterFault kind w) := h.sameBut rfl
  cases i with
  | cls => exact ⟨b, n + 1, k, h.newFrame rfl rfl rfl rfl, rfl⟩
  | drwVxVyN =>
    refine checkedRange_related (hfault _) ?_
    exact ⟨b, n + 1, k, h.newFrame rfl rfl rfl rfl, rfl⟩
  | ldStVx x =>
    exact ⟨s.reg x, n, k, ⟨fun ho => ⟨rfl, (h.outputs ho).2⟩, h.slots, h.occupied⟩, rfl⟩
  | ldBVx | ldMemVx =>
    refine checkedRange_related (hfault _) ?_
    exact h.sameBut rfl
  | ldVxMem x => exact checkedRange_related (hfault _) (h.sameBut_loadRegs _)
  | ret =>
    rcases Nat.eq_zero_or_pos s.sp.val with hsp | hsp
    · rw [exec_ret_of_empty hsp, exec_ret_of_empty (s := withHidden s b n k) hsp]
      exact hfault _ _
    · rw [exec_ret_of_outstanding hsp, exec_ret_of_outstanding (s := withHidden s b n k) hsp]
      exact ⟨b, n, k, h.ret hsp, h.afterReturn_withHidden hsp⟩
  | callNnn nnn =>
    by_cases hsp : s.sp.val < 16
    · rw [exec_callNnn_of_room nnn hsp, exec_callNnn_of_room (s := withHidden s b n k) nnn hsp]
      exact ⟨b, n, _, h.call _ hsp, rfl⟩
    · have hfull : s.sp.val = 16 := by omega
      rw [exec_callNnn_of_full nnn hfull, exec_callNnn_of_full (s := withHidden s b n k) nnn hfull]
      exact hfault _ _
  | addIVx x =>
    rcases Nat.lt_or_ge 0xFFF (s.indexSum x) with hsum | hsum
    · rw [exec_addIVx_of_gt hsum, exec_addIVx_of_gt (s := withHidden s b n k) hsum]
      exact hfault _ _
    · rw [exec_addIVx_of_le hsum, exec_addIVx_of_le (s := withHidden s b n k) hsum]
      exact h.sameBut rfl
  | seVxKk | sneVxKk | seVxVy | sneVxVy | skpVx | sknpVx => exact h.sameBut_complete _
  | _ => exact h.sameBut rfl

theorem Agree.waitSample : SameBut outputs slots s.waitSample (withHidden s b n k).waitSample := by
  cases hk : lowestKey s.newKeys with
  | none =>
    rw [waitSample_of_no_key hk, waitSample_of_no_key (s := withHidden s b n k) hk]
    exact h.sameBut rfl
  | some key =>
    rw [waitSample_of_key hk, waitSample_of_key (s := withHidden s b n k) hk]
    exact h.sameBut rfl

theorem Agree.tick : SameBut outputs slots s.tick (withHidden s b n k).tick := by
  cases hrun : s.run.isActive with
  | true =>
    rw [tick_of_active hrun, tick_of_active (s := withHidden s b n k) hrun]
    exact ⟨countDown b, n, k,
      ⟨fun ho => ⟨congrArg countDown (h.outputs ho).1, (h.outputs ho).2⟩, h.slots, h.occupied⟩, rfl⟩
  | false =>
    rw [tick_of_inactive hrun, tick_of_inactive (s := withHidden s b n k) hrun]
    exact h.sameBut rfl

theorem Agree.cancel : SameBut outputs slots s.cancel (withHidden s b n k).cancel := by
  cases hrun : s.run.isActive with
  | true =>
    rw [cancel_of_active hrun, cancel_of_active (s := withHidden s b n k) hrun]
    exact h.sameBut rfl
  | false =>
    rw [cancel_of_inactive hrun, cancel_of_inactive (s := withHidden s b n k) hrun]
    exact h.sameBut rfl

end

/-- Neither the outputs nor the stale slots can be observed, whichever of them differ. -/
theorem sameBut_unobservable (outputs slots : Prop) : Unobservable (SameBut outputs slots) where
  refl s := ⟨s.st, s.frameSeq, s.stack, ⟨fun _ => ⟨rfl, rfl⟩, fun _ => rfl, fun _ _ => rfl⟩, rfl⟩
  run := by rintro s _ ⟨b, n, k, -, rfl⟩; rfl
  pc := by rintro s _ ⟨b, n, k, -, rfl⟩; rfl
  mem := by rintro s _ ⟨b, n, k, -, rfl⟩; rfl
  draws := by rintro s _ ⟨b, n, k, -, rfl⟩; rfl
  schedule := by rintro s _ ⟨b, n, k, -, rfl⟩; rfl
  taken := by rintro s _ ⟨b, n, k, h, rfl⟩; exact h.sameBut rfl
  enterFault := by rintro s _ _ _ ⟨b, n, k, h, rfl⟩; exact h.sameBut rfl
  exec := by rintro s _ i ⟨b, n, k, h, rfl⟩; exact h.exec i
  waitSample := by rintro s _ ⟨b, n, k, h, rfl⟩; exact h.waitSample
  tick := by rintro s _ ⟨b, n, k, h, rfl⟩; exact h.tick
  setPressed := by rintro s _ _ _ ⟨b, n, k, h, rfl⟩; exact h.sameBut rfl
  cancel := by rintro s _ ⟨b, n, k, h, rfl⟩; exact h.cancel

/-! ### The two statements -/

theorem sameBut_outputs_iff {s t : State} :
    SameBut True False s t ↔ t = { s with st := t.st, frameSeq := t.frameSeq } := by
  constructor
  · rintro ⟨b, n, k, h, rfl⟩
    rw [h.slots not_false]
    rfl
  · intro h
    exact ⟨t.st, t.frameSeq, s.stack, ⟨fun ho => absurd trivial ho, fun _ => rfl, fun _ _ => rfl⟩, h⟩

theorem sameBut_slots_iff {s t : State} : SameBut False True s t ↔ SameButStaleSlots s t := by
  constructor
  · rintro ⟨b, n, k, h, rfl⟩
    obtain ⟨rfl, rfl⟩ := h.outputs not_false
    exact ⟨rfl, h.occupied⟩
  · rintro ⟨ht, hocc⟩
    exact ⟨s.st, s.frameSeq, t.stack, ⟨fun _ => ⟨rfl, rfl⟩, fun hs => absurd trivial hs, hocc⟩, ht⟩

theorem outcomesRelated_mono {R R' : State → State → Prop} (h : ∀ s t, R s t → R' s t)
    {o p : Host.Outcome State Fault Refusal} (hop : OutcomesRelated R o p) : OutcomesRelated R' o p := by
  cases o with
  | next s =>
    cases p with
    | next t => exact h s t hop
    | fault | refused => exact hop
  | fault | refused => cases p <;> exact hop

/-- Settles O56: with only the outputs free to differ. -/
theorem outputsAreNotObservable : Obligations.OutputsAreNotObservable := fun _ _ h =>
  outcomesRelated_mono (fun _ _ => sameBut_outputs_iff.1)
    ((sameBut_unobservable True False).step (sameBut_outputs_iff.2 h))

/-- Settles O57: with only the stale slots free to differ. -/
theorem staleSlotsAreNotObservable : Obligations.StaleSlotsAreNotObservable := fun _ _ h =>
  outcomesRelated_mono (fun _ _ => sameBut_slots_iff.1)
    ((sameBut_unobservable False True).step (sameBut_slots_iff.2 h))

end Sys2Proof
end
